-- ==== Sys2Proof/Word.lean ====
section
/-! DEFINITION. The word: the only unit of registers, memory and immediates (00_scope.md R8, 20_memory.md R41). -/

namespace Sys2Proof

/-- 16 bits, unsigned, bit 0 the least significant (00_scope.md R8, R10). -/
abbrev Word := BitVec 16

end Sys2Proof
end

