-- ==== Sys2Proof/Syntax.lean ====
section
/-! DEFINITION. The instructions as decoded from ONE opcode word: registers, operand modes, and one constructor per row of
spec/opcode_table.json. The extra words of an instruction are no part of it: they are read when an operand is evaluated
(30_encoding.md R60, 40_operands.md R90). -/

namespace Sys2Proof

/-- The eight general registers, in the order of their index: 0 = A, …, 7 = J (10_state.md R20). -/
inductive Reg where
  | a | b | c | x | y | z | i | j
deriving DecidableEq, Repr

/-- The operand modes (the source's ValueType; 30_encoding.md R66). One type serves both positions;
`Operand.wfA` and `Operand.wfB` say which modes a position admits. -/
inductive Operand where
  /-- 0x00–0x07: the register (R86) -/
  | reg (r : Reg)
  /-- 0x08–0x0F: [register] (R87) -/
  | ind (r : Reg)
  /-- 0x10–0x17: [register + next word] (R88) -/
  | indNext (r : Reg)
  /-- 0x18 in operand A (R89) -/
  | pop
  /-- 0x18 in operand B (R91) -/
  | push
  /-- 0x19: [SP] (R92) -/
  | peek
  /-- 0x1A: [SP + next word] (R93) -/
  | pick
  /-- 0x1B (R94) -/
  | sp
  /-- 0x1C (R95) -/
  | pc
  /-- 0x1D (R96) -/
  | ex
  /-- 0x1E: [next word] (R97) -/
  | nextInd
  /-- 0x1F: the next word as a literal (R98) -/
  | nextLit
  /-- 0x20–0x3F, operand A only: the small constant itself, -1 (0xFFFF) to 30 (R68, R99) -/
  | inlineLit (v : Word)
deriving DecidableEq, Repr

/-- The 36 instructions. Basic ones take operand B (written first, the destination) and operand A; special ones take
operand A only (30_encoding.md R60 to R62, R70, R71). -/
inductive Instr where
  -- 42_move.md and 43_arith.md, in the order of the opcode table
  | set (b a : Operand)
  | add (b a : Operand)
  | sub (b a : Operand)
  | mul (b a : Operand)
  | mli (b a : Operand)
  | div (b a : Operand)
  | dvi (b a : Operand)
  | mod (b a : Operand)
  | mdi (b a : Operand)
  -- 44_bitwise.md
  | and (b a : Operand)
  | bor (b a : Operand)
  | xor (b a : Operand)
  | shr (b a : Operand)
  | asr (b a : Operand)
  | shl (b a : Operand)
  -- 45_conditional.md
  | ifb (b a : Operand)
  | ifc (b a : Operand)
  | ife (b a : Operand)
  | ifn (b a : Operand)
  | ifg (b a : Operand)
  | ifa (b a : Operand)
  | ifl (b a : Operand)
  | ifu (b a : Operand)
  -- 43_arith.md (with carry) and 42_move.md (with I and J)
  | adx (b a : Operand)
  | sbx (b a : Operand)
  | sti (b a : Operand)
  | std (b a : Operand)
  -- 46_special.md
  | jsr (a : Operand)
  | int (a : Operand)
  | iag (a : Operand)
  | ias (a : Operand)
  | rfi (a : Operand)
  | iaq (a : Operand)
  | hwn (a : Operand)
  | hwq (a : Operand)
  | hwi (a : Operand)
deriving DecidableEq, Repr

/-- Operand B: every basic instruction has one, no special instruction does (30_encoding.md R61, R62). -/
def Instr.operandB : Instr → Option Operand
  | .set b _ | .add b _ | .sub b _ | .mul b _ | .mli b _ | .div b _ | .dvi b _ | .mod b _ | .mdi b _ => some b
  | .and b _ | .bor b _ | .xor b _ | .shr b _ | .asr b _ | .shl b _ => some b
  | .ifb b _ | .ifc b _ | .ife b _ | .ifn b _ | .ifg b _ | .ifa b _ | .ifl b _ | .ifu b _ => some b
  | .adx b _ | .sbx b _ | .sti b _ | .std b _ => some b
  | .jsr _ | .int _ | .iag _ | .ias _ | .rfi _ | .iaq _ | .hwn _ | .hwq _ | .hwi _ => none

/-- Operand A: every instruction has one. -/
def Instr.operandA : Instr → Operand
  | .set _ a | .add _ a | .sub _ a | .mul _ a | .mli _ a | .div _ a | .dvi _ a | .mod _ a | .mdi _ a => a
  | .and _ a | .bor _ a | .xor _ a | .shr _ a | .asr _ a | .shl _ a => a
  | .ifb _ a | .ifc _ a | .ife _ a | .ifn _ a | .ifg _ a | .ifa _ a | .ifl _ a | .ifu _ a => a
  | .adx _ a | .sbx _ a | .sti _ a | .std _ a => a
  | .jsr a | .int a | .iag a | .ias a | .rfi a | .iaq a | .hwn a | .hwq a | .hwi a => a

/-- How many extra words an operand mode consumes (30_encoding.md R69). -/
def Operand.extra : Operand → Nat
  | .indNext _ | .pick | .nextInd | .nextLit => 1
  | .reg _ | .ind _ | .pop | .push | .peek | .sp | .pc | .ex | .inlineLit _ => 0

/-- The length of an instruction in words (30_encoding.md R64). -/
def Instr.length (i : Instr) : Nat :=
  1 + i.operandA.extra + (i.operandB.map Operand.extra).getD 0

end Sys2Proof
end

