-- ==== Sys2Proof/WellFormed.lean ====
section
/-! DEFINITION. Which terms of `Instr` an opcode word can spell: PUSH only in operand B, POP and the inline literals only in
operand A, an inline literal only from -1 to 30 (30_encoding.md R66 to R68). -/

namespace Sys2Proof

/-- The modes of the 5-bit operand B field (30_encoding.md R66, R67). -/
def Operand.wfB : Operand → Bool
  | .pop | .inlineLit _ => false
  | .reg _ | .ind _ | .indNext _ | .push | .peek | .pick | .sp | .pc | .ex | .nextInd | .nextLit => true

/-- The modes of the 6-bit operand A field; the inline literals are 0xFFFF (-1) and 0 to 30 (30_encoding.md R66 to R68). -/
def Operand.wfA : Operand → Bool
  | .push => false
  | .inlineLit v => v == 0xFFFF || decide (v.toNat ≤ 30)
  | .reg _ | .ind _ | .indNext _ | .pop | .peek | .pick | .sp | .pc | .ex | .nextInd | .nextLit => true

/-- An instruction some opcode word stands for. -/
def Instr.wf (i : Instr) : Bool :=
  i.operandA.wfA && i.operandB.all Operand.wfB

end Sys2Proof
end

