-- ==== Sys2Proof/Decode.lean ====
section
/-! DEFINITION. The decoder, total on every word, and after it the encoder (30_encoding.md). One opcode word holds the whole
instruction but for its extra words. -/

namespace Sys2Proof

/-! ### The fields of an opcode word (30_encoding.md R61, R62) -/

/-- Bits 4:0. -/
def opField (w : Word) : BitVec 5 := w.extractLsb' 0 5

/-- Bits 9:5: operand B, or the opcode of a special instruction. -/
def bField (w : Word) : BitVec 5 := w.extractLsb' 5 5

/-- Bits 15:10: operand A. -/
def aField (w : Word) : BitVec 6 := w.extractLsb' 10 6

/-- The register with index `n` modulo 8 (10_state.md R20). -/
def Reg.ofIndex (n : Nat) : Reg :=
  match n % 8 with
  | 0 => .a
  | 1 => .b
  | 2 => .c
  | 3 => .x
  | 4 => .y
  | 5 => .z
  | 6 => .i
  | _ => .j

/-- The index of a register (10_state.md R20). -/
def Reg.index : Reg → Nat
  | .a => 0
  | .b => 1
  | .c => 2
  | .x => 3
  | .y => 4
  | .z => 5
  | .i => 6
  | .j => 7

/-- The modes both positions share, and `stack` for 0x18, which is POP in A and PUSH in B (30_encoding.md R66). -/
def decodeField (f : BitVec 5) (stack : Operand) : Operand :=
  if f.toNat < 0x08 then .reg (Reg.ofIndex f.toNat)
  else if f.toNat < 0x10 then .ind (Reg.ofIndex (f.toNat - 0x08))
  else if f.toNat < 0x18 then .indNext (Reg.ofIndex (f.toNat - 0x10))
  else match f.toNat with
    | 0x18 => stack
    | 0x19 => .peek
    | 0x1A => .pick
    | 0x1B => .sp
    | 0x1C => .pc
    | 0x1D => .ex
    | 0x1E => .nextInd
    | _ => .nextLit

/-- Operand B: every 5-bit value is a mode (30_encoding.md R66, R67). -/
def decodeB (f : BitVec 5) : Operand := decodeField f .push

/-- Operand A: every 6-bit value is a mode; 0x20 to 0x3F is the literal N - 0x21 (30_encoding.md R66 to R68). -/
def decodeA (f : BitVec 6) : Operand :=
  if f.toNat < 0x20 then decodeField (f.setWidth 5) .pop
  else .inlineLit (BitVec.ofNat 16 (f.toNat + 0xFFDF))

/-- The basic opcodes; `none` for 0x18, 0x19, 0x1C and 0x1D (30_encoding.md R70, R72). PRESUMED numbers: the spec's own general
knowledge, D2 (assumption log 7). -/
def decodeBasic (op : BitVec 5) (b a : Operand) : Option Instr :=
  match op.toNat with
  | 0x01 => some (.set b a)
  | 0x02 => some (.add b a)
  | 0x03 => some (.sub b a)
  | 0x04 => some (.mul b a)
  | 0x05 => some (.mli b a)
  | 0x06 => some (.div b a)
  | 0x07 => some (.dvi b a)
  | 0x08 => some (.mod b a)
  | 0x09 => some (.mdi b a)
  | 0x0A => some (.and b a)
  | 0x0B => some (.bor b a)
  | 0x0C => some (.xor b a)
  | 0x0D => some (.shr b a)
  | 0x0E => some (.asr b a)
  | 0x0F => some (.shl b a)
  | 0x10 => some (.ifb b a)
  | 0x11 => some (.ifc b a)
  | 0x12 => some (.ife b a)
  | 0x13 => some (.ifn b a)
  | 0x14 => some (.ifg b a)
  | 0x15 => some (.ifa b a)
  | 0x16 => some (.ifl b a)
  | 0x17 => some (.ifu b a)
  | 0x1A => some (.adx b a)
  | 0x1B => some (.sbx b a)
  | 0x1E => some (.sti b a)
  | 0x1F => some (.std b a)
  | _ => none

/-- The special opcodes; `none` for every value without a row (30_encoding.md R71, R73). PRESUMED numbers, as above. -/
def decodeSpecial (op : BitVec 5) (a : Operand) : Option Instr :=
  match op.toNat with
  | 0x01 => some (.jsr a)
  | 0x08 => some (.int a)
  | 0x09 => some (.iag a)
  | 0x0A => some (.ias a)
  | 0x0B => some (.rfi a)
  | 0x0C => some (.iaq a)
  | 0x10 => some (.hwn a)
  | 0x11 => some (.hwq a)
  | 0x12 => some (.hwi a)
  | _ => none

/-- The decoder: bits 4:0 alone tell the format; `none` is the spec's DecodeError (30_encoding.md R63, R75). -/
def decode (w : Word) : Option Instr :=
  if opField w = 0 then decodeSpecial (bField w) (decodeA (aField w))
  else decodeBasic (opField w) (decodeB (bField w)) (decodeA (aField w))

/-- Whether an operand field takes an extra word (30_encoding.md R69). -/
def fieldExtra (f : Nat) : Nat :=
  if (0x10 ≤ f ∧ f ≤ 0x17) ∨ f = 0x1A ∨ f = 0x1E ∨ f = 0x1F then 1 else 0

/-- The length formula of 30_encoding.md R64 on the fields of any word, decodable or not: the skip needs it for both
(41_cycle.md R114, R115). -/
def wordLength (w : Word) : Nat :=
  1 + fieldExtra (aField w).toNat + (if opField w ≠ 0 then fieldExtra (bField w).toNat else 0)

/-! ### The encoder -/

/-- The field of a mode both positions have. POP and PUSH are the same field, 0x18 (30_encoding.md R66). -/
def encodeB : Operand → BitVec 5
  | .reg r => BitVec.ofNat 5 r.index
  | .ind r => BitVec.ofNat 5 (0x08 + r.index)
  | .indNext r => BitVec.ofNat 5 (0x10 + r.index)
  | .pop | .push => 0x18
  | .peek => 0x19
  | .pick => 0x1A
  | .sp => 0x1B
  | .pc => 0x1C
  | .ex => 0x1D
  | .nextInd => 0x1E
  | .nextLit | .inlineLit _ => 0x1F

/-- The 6-bit field of operand A: an inline literal `v` is 0x21 + v, so -1 is 0x20 (30_encoding.md R66, R68). -/
def encodeA : Operand → BitVec 6
  | .inlineLit v => (v + 0x21).setWidth 6
  | .reg r => (encodeB (.reg r)).setWidth 6
  | .ind r => (encodeB (.ind r)).setWidth 6
  | .indNext r => (encodeB (.indNext r)).setWidth 6
  | .pop => (encodeB .pop).setWidth 6
  | .push => (encodeB .push).setWidth 6
  | .peek => (encodeB .peek).setWidth 6
  | .pick => (encodeB .pick).setWidth 6
  | .sp => (encodeB .sp).setWidth 6
  | .pc => (encodeB .pc).setWidth 6
  | .ex => (encodeB .ex).setWidth 6
  | .nextInd => (encodeB .nextInd).setWidth 6
  | .nextLit => (encodeB .nextLit).setWidth 6

/-- `(a << 10) | (b << 5) | op` (30_encoding.md R61). -/
def packBasic (op b : BitVec 5) (a : BitVec 6) : Word :=
  (a.setWidth 16 <<< 10) ||| (b.setWidth 16 <<< 5) ||| op.setWidth 16

/-- The same packing with the special opcode in bits 9:5 and bits 4:0 zero (30_encoding.md R62). -/
def packSpecial (op : BitVec 5) (a : BitVec 6) : Word :=
  (a.setWidth 16 <<< 10) ||| (op.setWidth 16 <<< 5)

/-- The opcode number: bits 4:0 of a basic word, bits 9:5 of a special word (30_encoding.md R70, R71). -/
def Instr.opcode : Instr → BitVec 5
  | .set _ _ => 0x01
  | .add _ _ => 0x02
  | .sub _ _ => 0x03
  | .mul _ _ => 0x04
  | .mli _ _ => 0x05
  | .div _ _ => 0x06
  | .dvi _ _ => 0x07
  | .mod _ _ => 0x08
  | .mdi _ _ => 0x09
  | .and _ _ => 0x0A
  | .bor _ _ => 0x0B
  | .xor _ _ => 0x0C
  | .shr _ _ => 0x0D
  | .asr _ _ => 0x0E
  | .shl _ _ => 0x0F
  | .ifb _ _ => 0x10
  | .ifc _ _ => 0x11
  | .ife _ _ => 0x12
  | .ifn _ _ => 0x13
  | .ifg _ _ => 0x14
  | .ifa _ _ => 0x15
  | .ifl _ _ => 0x16
  | .ifu _ _ => 0x17
  | .adx _ _ => 0x1A
  | .sbx _ _ => 0x1B
  | .sti _ _ => 0x1E
  | .std _ _ => 0x1F
  | .jsr _ => 0x01
  | .int _ => 0x08
  | .iag _ => 0x09
  | .ias _ => 0x0A
  | .rfi _ => 0x0B
  | .iaq _ => 0x0C
  | .hwn _ => 0x10
  | .hwq _ => 0x11
  | .hwi _ => 0x12

/-- The opcode word of a well-formed instruction (30_encoding.md R61, R62, R77). Its extra words, if any, follow it in
memory, B's first (R65); they are data, not part of `Instr`. On an ill-formed term the word says nothing. -/
def encode (i : Instr) : Word :=
  match i.operandB with
  | some b => packBasic i.opcode (encodeB b) (encodeA i.operandA)
  | none => packSpecial i.opcode (encodeA i.operandA)

/-- The host's numbering: bit 0 is the least significant bit of the first word, and `nbits` bits are given. The opcode word
is the first word; a later word is an extra word and decides nothing here (30_encoding.md R76). -/
def decodeTableWord (nbits w : Nat) : Option Instr :=
  decode (BitVec.ofNat 16 (w % 2 ^ nbits))

end Sys2Proof
end

