-- ==== Sys2Proof/Config.lean ====
section
/-! DEFINITION. What an implementation of the core fixes: the named parameters of 00_scope.md R9 that a rule of the
machine reads, and the two open base addresses that none reads. The settings a machine starts with stand in
Machine/Defaults.lean. -/

namespace Sys2Proof

/-- Which write wins when EX is the destination of an instruction that also sets EX (43_arith.md R141). -/
inductive ExDestOrder where
  | exLast
  | bLast
deriving DecidableEq, Repr

/-- What a shift by 16 or more does (44_bitwise.md R176). -/
inductive WideShift where
  | math
  | fault
deriving DecidableEq, Repr

/-- What DVI and MDI of -32768 by -1 do (43_arith.md R151, R155). -/
inductive SignedDivOverflow where
  | wrap
  | fault
deriving DecidableEq, Repr

/-- Whether MOD and MDI by zero write EX (43_arith.md R153). -/
inductive ModZeroEx where
  | clear
  | keep
deriving DecidableEq, Repr

/-- What a skip over an undecodable word does (41_cycle.md R115). -/
inductive SkipInvalid where
  | fault
  | lengthOnly
deriving DecidableEq, Repr

/-- What the six stub instructions do after evaluating their operand (46_special.md R206). -/
inductive StubPolicy where
  | refuse
  | nop
deriving DecidableEq, Repr

/-- The parameters of 00_scope.md R9 that a rule of the machine reads. They are fixed for a machine: State carries
them as plain data and no step changes them (assumption log 2). -/
structure Params where
  /-- 43_arith.md R141 -/
  exDestOrder : ExDestOrder
  /-- 44_bitwise.md R176 -/
  wideShift : WideShift
  /-- 43_arith.md R151 -/
  signedDivOverflow : SignedDivOverflow
  /-- 43_arith.md R153 -/
  modZeroEx : ModZeroEx
  /-- 43_arith.md R157: `true` reads the carry-in EX as two's complement -/
  carryInSigned : Bool
  /-- 41_cycle.md R115 -/
  skipInvalid : SkipInvalid
  /-- 46_special.md R206 -/
  stubPolicy : StubPolicy
  /-- 41_cycle.md R117 -/
  haltDetect : Bool
deriving DecidableEq, Repr

/-- Base of the keyboard ring buffer: open, and read by no rule of the core (20_memory.md R47). UNVERIFIED, free
(assumption log 8). -/
opaque Config.kbdBase : Word

/-- Base of the character-cell framebuffer: open, and read by no rule of the core (20_memory.md R47). UNVERIFIED, free
(assumption log 8). -/
opaque Config.screenBase : Word

end Sys2Proof
end

