-- ==== Sys2Proof/Machine/Defaults.lean ====
section
/-! DEFINITION. The settings and draws that `State.reset` starts with: the defaults of spec/92_eei_decisions.md for executable
runs. No rule and no statement rests on them: `State.load` takes any registers and memory, and State carries the parameters. -/

namespace Sys2Proof.Machine

/-- The defaults that 92_eei_decisions.md gives for the parameters of 00_scope.md R9. A machine with other settings starts
from the same state with other `params` (assumption log 3). -/
def defaultParams : Params where
  exDestOrder := .exLast
  wideShift := .math
  signedDivOverflow := .wrap
  modZeroEx := .clear
  carryInSigned := false
  skipInvalid := .fault
  stubPolicy := .refuse
  haltDetect := true

/-- What a memory word that nothing has written reads as. DESIGN CHOICE (assumption log 5): the simulator default 0 of
`initMem` (10_state.md R34, 92_eei_decisions.md D6). -/
def unlistedWord : Word := 0

end Sys2Proof.Machine
end

