-- ==== Sys2Proof/Machine/State.lean ====
section
/-! DEFINITION. The machine's state as plain data (10_state.md R36, R37), the outcomes of a step, and the state at reset. -/

namespace Sys2Proof.Machine

/-- The eight general registers A, B, C, X, Y, Z, I, J (10_state.md R20, R21). -/
structure Regs where
  a : Word
  b : Word
  c : Word
  x : Word
  y : Word
  z : Word
  i : Word
  j : Word
deriving DecidableEq, Repr

/-- One word of memory at its index. The machine has no bytes, so the cell is a word (20_memory.md R41; assumption
log 1). -/
abbrev Cell := Nat × Word

/-- The 65,536 words of memory (10_state.md R33): the words that differ from `unlistedWord`, by rising index.
`Memory.wf` is that form. -/
abbrev Memory := List Cell

/-- Why the machine is Faulted (10_state.md R30, 60_exceptions.md R272). -/
inductive FaultReason where
  /-- an undecodable word, fetched or skipped (41_cycle.md R115, R118) -/
  | decodeError
  /-- only under `signedDivOverflow = fault` or `wideShift = fault` (43_arith.md R151, 44_bitwise.md R176) -/
  | arithFault
  /-- only under `stubPolicy = refuse` (46_special.md R206) -/
  | stub
deriving DecidableEq, Repr

/-- The run state (10_state.md R30): a tick acts only in Running; Finished and Faulted last until the next load.
Faulted records the cause, `pc` and `word` (60_exceptions.md R272). -/
inductive RunState where
  | running
  | finished
  | faulted (reason : FaultReason) (pc word : Word)
deriving DecidableEq, Repr

/-- The complete state (10_state.md R36), and with it the machine's parameters (assumption log 2). -/
structure State where
  /-- A, B, C, X, Y, Z, I, J (R20) -/
  regs : Regs
  /-- program counter (R23) -/
  pc : Word
  /-- stack pointer (R26) -/
  sp : Word
  /-- excess register (R28) -/
  ex : Word
  /-- interrupt address (R31) -/
  ia : Word
  /-- memory (R33) -/
  mem : Memory
  /-- Running, Finished or Faulted (R30) -/
  run : RunState
  /-- the model's own field: the settings of 00_scope.md R9, which no step changes -/
  params : Params
deriving DecidableEq, Repr

/-- The machine has no way to stop outside its own state: every runtime error is the run state Faulted, reached by a NEXT
state (41_cycle.md R118; assumption log 6). So no reason to stop with a fault exists, and nobody raises one. -/
inductive Fault
deriving DecidableEq, Repr

/-- Why the model has no next state. -/
inductive Refusal where
  /-- Raised by an arm of `exec` whose instruction has no meaning yet; no arm is left so. Safe. -/
  | notModelled (mnemonic : String)
  /-- Raised by `State.load` alone, for a program of more than 65,536 words: the spec refuses it and nothing changes
  (70_reset_and_hazards.md R291). Safe. -/
  | programTooLong (length : Nat)
deriving DecidableEq, Repr

/-- The state right after the load of an empty program (70_reset_and_hazards.md R290): PC 0 (R25), SP 0xFFFF (R27), Running
(R30), and the parameters at their defaults (00_scope.md R9; assumption log 3). DESIGN CHOICE: A to J, EX and IA are 0
(log 4), and memory lists nothing (log 5). -/
def State.reset : State where
  regs := { a := 0, b := 0, c := 0, x := 0, y := 0, z := 0, i := 0, j := 0 }
  pc := 0
  sp := 0xFFFF
  ex := 0
  ia := 0
  mem := []
  run := .running
  params := defaultParams

end Sys2Proof.Machine
end

