-- ==== Sys2Proof/Machine/Ops.lean ====
section
/-! DEFINITION. The named operations over registers, memory and the run state that every meaning is made of: reading and
writing, the next word, the skip, taking a fault, and the end of a tick. -/

namespace Sys2Proof.Machine

/-! ### Words and integers (00_scope.md R11) -/

/-- `trunc16`: the residue modulo 65,536 of any integer. -/
def trunc16 (t : Int) : Word := BitVec.ofInt 16 t

/-- `s16`: the two's-complement reading. -/
def s16 (w : Word) : Int := w.toInt

/-! ### General registers (10_state.md R20, R21) -/

def Regs.get (g : Regs) : Reg → Word
  | .a => g.a
  | .b => g.b
  | .c => g.c
  | .x => g.x
  | .y => g.y
  | .z => g.z
  | .i => g.i
  | .j => g.j

def Regs.set (g : Regs) (r : Reg) (v : Word) : Regs :=
  match r with
  | .a => { g with a := v }
  | .b => { g with b := v }
  | .c => { g with c := v }
  | .x => { g with x := v }
  | .y => { g with y := v }
  | .z => { g with z := v }
  | .i => { g with i := v }
  | .j => { g with j := v }

/-- `x[i] <- v` (00_scope.md R12). -/
def State.setReg (s : State) (r : Reg) (v : Word) : State := { s with regs := s.regs.set r v }

/-! ### Memory (20_memory.md R40 to R45) -/

/-- The word at an index; an unlisted index reads `unlistedWord`. -/
def Memory.lookup : Memory → Nat → Word
  | [], _ => unlistedWord
  | (k, v) :: m, n => if k = n then v else Memory.lookup m n

/-- Sets the word at an index, keeping the indices rising. -/
def Memory.insertCell : Memory → Nat → Word → Memory
  | [], n, v => [(n, v)]
  | (k, x) :: m, n, v =>
    if n < k then (n, v) :: (k, x) :: m
    else if n = k then (n, v) :: m
    else (k, x) :: Memory.insertCell m n v

/-- Forgets the word at an index, which then reads `unlistedWord`. -/
def Memory.removeCell : Memory → Nat → Memory
  | [], _ => []
  | (k, x) :: m, n => if k = n then Memory.removeCell m n else (k, x) :: Memory.removeCell m n

/-- `MemRead(addr, 1)`: every one of the 65,536 indices is valid (20_memory.md R42, R44). -/
def Memory.read (m : Memory) (addr : Word) : Word := Memory.lookup m addr.toNat

/-- `MemWrite(addr, 1, v)`, in canonical form: writing `unlistedWord` removes the entry (20_memory.md R43, R44). -/
def Memory.write (m : Memory) (addr v : Word) : Memory :=
  if v = unlistedWord then Memory.removeCell m addr.toNat else Memory.insertCell m addr.toNat v

/-- The canonical form: indices strictly rising and below 65,536, no entry equal to what an unlisted index reads as. -/
def Memory.wf (m : Memory) : Bool :=
  decide (m.Pairwise fun p q => p.1 < q.1) && m.all fun p => decide (p.1 < 65536) && p.2 != unlistedWord

def State.readMem (s : State) (addr : Word) : Word := Memory.read s.mem addr

def State.writeMem (s : State) (addr v : Word) : State := { s with mem := Memory.write s.mem addr v }

/-! ### PC, the next word and the stack -/

/-- PC moves on by one word, modulo 65,536 (10_state.md R23, R24). -/
def State.advancePc (s : State) : State := { s with pc := s.pc + 1 }

/-- The word a tick fetches (41_cycle.md R111). -/
def State.fetchWord (s : State) : Word := s.readMem s.pc

/-- `nextWord()`: the word at PC, and then PC moves on (40_operands.md R90). -/
def State.nextWord (s : State) : Word × State := (s.readMem s.pc, s.advancePc)

/-- SP down by one, then a store at it (10_state.md R26; the push of 46_special.md R200). -/
def State.pushWord (s : State) (v : Word) : State := { s with sp := s.sp - 1 }.writeMem (s.sp - 1) v

/-! ### Faults, the skip and the end of a tick -/

/-- Taking a fault: the run state records cause, `pc` and `word`, and nothing else changes. Nothing is saved, PC is not
redirected and nothing is pushed (41_cycle.md R118, 60_exceptions.md R272, R274, R276). No instruction returns from
it: only `State.load` leaves Faulted (60_exceptions.md R277). -/
def State.takeFault (s : State) (reason : FaultReason) (pc word : Word) : State :=
  { s with run := .faulted reason pc word }

/-- `skipNext()`: PC passes the whole instruction it stands at, which is not executed (41_cycle.md R114 to R116). An
undecodable word is a DecodeError at its own address, or is passed by length alone, as `skipInvalid` says (R115). -/
def State.skipNext (s : State) : State :=
  let w := s.fetchWord
  let passed := { s with pc := s.pc + BitVec.ofNat 16 (wordLength w) }
  match decode w, s.params.skipInvalid with
  | some _, _ => passed
  | none, .lengthOnly => passed
  | none, .fault => s.takeFault .decodeError s.pc w

/-- The termination rule: a tick that did not fault and left PC at `pc0` makes the machine Finished, if `haltDetect`
(41_cycle.md R117, 60_exceptions.md R274). -/
def State.finishTick (pc0 : Word) (t : State) : State :=
  match t.run with
  | .running => if t.params.haltDetect = true ∧ t.pc = pc0 then { t with run := .finished } else t
  | .finished => t
  | .faulted _ _ _ => t

/-- `finishTick` on an outcome. -/
def finishOutcome (pc0 : Word) : Host.Outcome State Fault Refusal → Host.Outcome State Fault Refusal
  | .next t => .next (t.finishTick pc0)
  | .fault r => .fault r
  | .refused r => .refused r

end Sys2Proof.Machine
end

