-- ==== Sys2Proof/Machine/Operands.lean ====
section
/-! DEFINITION. The Value-Type Resolver: every operand mode evaluated to a location with its side effects on PC and SP, and
reading and writing a location (40_operands.md). -/

namespace Sys2Proof.Machine

/-- The resolved form of an operand (00_scope.md R14). -/
inductive Location where
  | reg (r : Reg)
  | sp
  | pc
  | ex
  | mem (addr : Word)
  | lit (v : Word)
deriving DecidableEq, Repr

/-- Operand evaluation (40_operands.md R85 to R99): the location, and the state after the mode's side effects. POP and PUSH are
the two readings of field 0x18, told apart by position at decoding. -/
def eval (o : Operand) (s : State) : Location × State :=
  match o with
  | .reg r => (.reg r, s)
  | .ind r => (.mem (s.regs.get r), s)
  | .indNext r => (.mem (s.regs.get r + s.nextWord.1), s.nextWord.2)
  | .pop => (.mem s.sp, { s with sp := s.sp + 1 })
  | .push => (.mem (s.sp - 1), { s with sp := s.sp - 1 })
  | .peek => (.mem s.sp, s)
  | .pick => (.mem (s.sp + s.nextWord.1), s.nextWord.2)
  | .sp => (.sp, s)
  | .pc => (.pc, s)
  | .ex => (.ex, s)
  | .nextInd => (.mem s.nextWord.1, s.nextWord.2)
  | .nextLit => (.lit s.nextWord.1, s.nextWord.2)
  | .inlineLit v => (.lit v, s)

/-- `read(loc)` (40_operands.md R100). -/
def State.readLoc (s : State) : Location → Word
  | .reg r => s.regs.get r
  | .sp => s.sp
  | .pc => s.pc
  | .ex => s.ex
  | .mem addr => s.readMem addr
  | .lit v => v

/-- `write(loc, v)`; a write to a literal is discarded (40_operands.md R101). -/
def State.writeLoc (s : State) (loc : Location) (v : Word) : State :=
  match loc with
  | .reg r => s.setReg r v
  | .sp => { s with sp := v }
  | .pc => { s with pc := v }
  | .ex => { s with ex := v }
  | .mem addr => s.writeMem addr v
  | .lit _ => s

/-- Both operands of a basic instruction, resolved, and the state in which the opcode executes. -/
structure Resolved where
  b : Location
  a : Location
  st : State
deriving DecidableEq, Repr

/-- The values of both operands, read after both evaluations (40_operands.md R104). -/
def Resolved.bv (r : Resolved) : Word := r.st.readLoc r.b

def Resolved.av (r : Resolved) : Word := r.st.readLoc r.a

/-- A basic instruction up to its execution, from the state at its opcode word: PC passes the opcode word, B is evaluated,
then A (41_cycle.md R111, 40_operands.md R102). -/
def resolveBasic (b a : Operand) (s : State) : Resolved :=
  let rb := eval b s.advancePc
  let ra := eval a rb.2
  { b := rb.1, a := ra.1, st := ra.2 }

/-- A special instruction up to its execution: PC passes the opcode word, A is evaluated (40_operands.md R102). -/
def resolveSpecial (a : Operand) (s : State) : Location × State := eval a s.advancePc

end Sys2Proof.Machine
end

