-- ==== Sys2Proof/Machine/Flags.lean ====
section
/-! DEFINITION. Every result and every EX value of the arithmetic and shift instructions, computed on unbounded integers and
narrowed at the end (43_arith.md, 44_bitwise.md), and the write of both. The formulas other than those of ADD and SUB are
the spec's own general knowledge (D53; assumption log 7). -/

namespace Sys2Proof.Machine

/-- A 16-bit result and the EX value that goes with it. -/
structure ValueEx where
  value : Word
  ex : Word
deriving DecidableEq, Repr

/-- Writes the result and EX in the order `exDestOrder` says, which shows only when the destination is EX
(43_arith.md R141). -/
def State.writeWithEx (s : State) (loc : Location) (r : ValueEx) : State :=
  match s.params.exDestOrder with
  | .exLast => { s.writeLoc loc r.value with ex := r.ex }
  | .bLast => { s with ex := r.ex }.writeLoc loc r.value

/-- ADD: EX is 1 on unsigned carry-out (43_arith.md R140). -/
def addValue (bv av : Word) : ValueEx :=
  let t := bv.toNat + av.toNat
  { value := trunc16 t, ex := if t > 0xFFFF then 0x0001 else 0x0000 }

/-- SUB: EX is 0xFFFF on unsigned borrow (43_arith.md R142). -/
def subValue (bv av : Word) : ValueEx :=
  let t : Int := (bv.toNat : Int) - av.toNat
  { value := trunc16 t, ex := if t < 0 then 0xFFFF else 0x0000 }

/-- MUL: EX is the high word of the unsigned product (43_arith.md R144). -/
def mulValue (bv av : Word) : ValueEx :=
  let t := bv.toNat * av.toNat
  { value := trunc16 t, ex := trunc16 (t >>> 16 : Nat) }

/-- MLI: EX is the high word of the signed product (43_arith.md R146). -/
def mliValue (bv av : Word) : ValueEx :=
  let t := s16 bv * s16 av
  { value := trunc16 t, ex := trunc16 (t >>> (16 : Nat)) }

/-- DIV: EX is the first 16 fractional bits; a zero divisor gives 0 and EX 0 (43_arith.md R148, R149). -/
def divValue (bv av : Word) : ValueEx :=
  if av = 0 then { value := 0, ex := 0 }
  else { value := trunc16 (bv.toNat / av.toNat : Nat), ex := trunc16 (bv.toNat * 65536 / av.toNat : Nat) }

/-- DVI: both quotients round toward zero; a zero divisor gives 0 and EX 0 (43_arith.md R150). On -32768 by -1 this is the
`wrap` result (R151). -/
def dviValue (bv av : Word) : ValueEx :=
  if av = 0 then { value := 0, ex := 0 }
  else { value := trunc16 ((s16 bv).tdiv (s16 av)), ex := trunc16 ((s16 bv * 65536).tdiv (s16 av)) }

/-- MOD by a nonzero divisor (43_arith.md R152). -/
def modValue (bv av : Word) : Word := trunc16 (bv.toNat % av.toNat : Nat)

/-- MDI by a nonzero divisor: the sign of the dividend (43_arith.md R154). -/
def mdiValue (bv av : Word) : Word := trunc16 ((s16 bv).tmod (s16 av))

/-- The one signed quotient that does not fit, -32768 by -1 (43_arith.md R151, R155). -/
def signedQuotientOverflows (bv av : Word) : Bool := bv == 0x8000 && av == 0xFFFF

/-- The carry-in of ADX and SBX (43_arith.md R157). -/
def carryIn (p : Params) (ex : Word) : Int := if p.carryInSigned = true then s16 ex else ex.toNat

/-- The EX value of a sum or difference with carry: 1 above the word, 0xFFFF below it (43_arith.md R156, R158). -/
def carryOut (t : Int) : Word := if t > 0xFFFF then 0x0001 else if t < 0 then 0xFFFF else 0x0000

/-- ADX (43_arith.md R156). -/
def adxValue (c : Int) (bv av : Word) : ValueEx :=
  let t : Int := bv.toNat + av.toNat + c
  { value := trunc16 t, ex := carryOut t }

/-- SBX (43_arith.md R158). -/
def sbxValue (c : Int) (bv av : Word) : ValueEx :=
  let t : Int := bv.toNat - av.toNat + c
  { value := trunc16 t, ex := carryOut t }

/-- SHR: logical; EX takes the bits shifted out, at its top (44_bitwise.md R173). -/
def shrValue (bv av : Word) : ValueEx :=
  { value := trunc16 (bv.toNat >>> av.toNat : Nat), ex := trunc16 ((bv.toNat <<< 16) >>> av.toNat : Nat) }

/-- ASR: the sign fills both (44_bitwise.md R174). -/
def asrValue (bv av : Word) : ValueEx :=
  { value := trunc16 (s16 bv >>> av.toNat), ex := trunc16 ((s16 bv * 65536) >>> av.toNat) }

/-- SHL: EX takes the bits shifted out of the top, at its bottom (44_bitwise.md R175). -/
def shlValue (bv av : Word) : ValueEx :=
  { value := trunc16 (bv.toNat <<< av.toNat : Nat), ex := trunc16 ((bv.toNat <<< av.toNat) >>> 16 : Nat) }

end Sys2Proof.Machine
end

