-- ==== Sys2Proof/Machine/Shapes.lean ====
section
/-! DEFINITION. The shapes the meanings share. Each starts from the state at the instruction's opcode word, so `s.pc` is the
`pc0` of 41_cycle.md R111, and each answers a next state for every operand and every state. -/

namespace Sys2Proof.Machine

/-- A result written to B; EX is not written as a side effect. -/
def storeResult (f : Word → Word → Word) (b a : Operand) (s : State) : Host.Outcome State Fault Refusal :=
  let r := resolveBasic b a s
  .next (r.st.writeLoc r.b (f r.bv r.av))

/-- A result written to B, and EX. -/
def storeResultEx (f : Word → Word → ValueEx) (b a : Operand) (s : State) : Host.Outcome State Fault Refusal :=
  let r := resolveBasic b a s
  .next (r.st.writeWithEx r.b (f r.bv r.av))

/-- ADX and SBX: as `storeResultEx`, with the carry-in read from EX before anything is written (43_arith.md R156). -/
def storeWithCarry (f : Int → Word → Word → ValueEx) (b a : Operand) (s : State) : Host.Outcome State Fault Refusal :=
  let r := resolveBasic b a s
  .next (r.st.writeWithEx r.b (f (carryIn r.st.params r.st.ex) r.bv r.av))

/-- A shift: a count of 16 or more faults under `wideShift = fault`, before the result write (44_bitwise.md R176,
60_exceptions.md R274). -/
def storeShift (opcode : Word) (f : Word → Word → ValueEx) (b a : Operand) (s : State) :
    Host.Outcome State Fault Refusal :=
  let r := resolveBasic b a s
  if r.st.params.wideShift = .fault ∧ 16 ≤ r.av.toNat then .next (r.st.takeFault .arithFault s.pc opcode)
  else .next (r.st.writeWithEx r.b (f r.bv r.av))

/-- A remainder: by zero it is 0, and EX is cleared or kept as `modZeroEx` says; by anything else EX is not written
(43_arith.md R152, R153). -/
def remainderResult (f : Word → Word → Word) (r : Resolved) : State :=
  if r.av = 0 then
    match r.st.params.modZeroEx with
    | .clear => r.st.writeWithEx r.b { value := 0, ex := 0 }
    | .keep => r.st.writeLoc r.b 0
  else r.st.writeLoc r.b (f r.bv r.av)

/-- DVI and MDI: -32768 by -1 faults under `signedDivOverflow = fault`, before the result write (43_arith.md R151, R155). -/
def orDivFault (opcode pc0 : Word) (r : Resolved) (done : State) : Host.Outcome State Fault Refusal :=
  if r.st.params.signedDivOverflow = .fault ∧ signedQuotientOverflows r.bv r.av = true then
    .next (r.st.takeFault .arithFault pc0 opcode)
  else .next done

/-- An IFx: it writes nothing, and a failed test skips the next instruction (45_conditional.md R193, R194). -/
def conditional (test : Word → Word → Bool) (b a : Operand) (s : State) : Host.Outcome State Fault Refusal :=
  let r := resolveBasic b a s
  .next (if test r.bv r.av = true then r.st else r.st.skipNext)

/-- STI and STD: the write comes first, then I and J move by `d` (42_move.md R132, R133). -/
def storeAndMove (d : Word) (b a : Operand) (s : State) : Host.Outcome State Fault Refusal :=
  let r := resolveBasic b a s
  let t := r.st.writeLoc r.b r.av
  .next { t with regs := { t.regs with i := t.regs.i + d, j := t.regs.j + d } }

/-- A stub: the operand is evaluated; then nothing, or the fault Stub, as `stubPolicy` says (46_special.md R206). -/
def execStub (opcode : Word) (a : Operand) (s : State) : Host.Outcome State Fault Refusal :=
  let t := (resolveSpecial a s).2
  match t.params.stubPolicy with
  | .refuse => .next (t.takeFault .stub s.pc opcode)
  | .nop => .next t

end Sys2Proof.Machine
end

