-- ==== Sys2Proof/Machine/Arith.lean ====
section
/-! DEFINITION. The arithmetic instructions (43_arith.md). -/

namespace Sys2Proof.Machine

/-- ADD b, a (43_arith.md R140). -/
def execAdd (b a : Operand) (s : State) : Host.Outcome State Fault Refusal := storeResultEx addValue b a s

/-- SUB b, a (43_arith.md R142). -/
def execSub (b a : Operand) (s : State) : Host.Outcome State Fault Refusal := storeResultEx subValue b a s

/-- MUL b, a (43_arith.md R144). -/
def execMul (b a : Operand) (s : State) : Host.Outcome State Fault Refusal := storeResultEx mulValue b a s

/-- MLI b, a (43_arith.md R146). -/
def execMli (b a : Operand) (s : State) : Host.Outcome State Fault Refusal := storeResultEx mliValue b a s

/-- DIV b, a (43_arith.md R148). -/
def execDiv (b a : Operand) (s : State) : Host.Outcome State Fault Refusal := storeResultEx divValue b a s

/-- DVI b, a (43_arith.md R150, R151). -/
def execDvi (b a : Operand) (s : State) : Host.Outcome State Fault Refusal :=
  let r := resolveBasic b a s
  orDivFault 0x07 s.pc r (r.st.writeWithEx r.b (dviValue r.bv r.av))

/-- MOD b, a (43_arith.md R152, R153). -/
def execMod (b a : Operand) (s : State) : Host.Outcome State Fault Refusal :=
  .next (remainderResult modValue (resolveBasic b a s))

/-- MDI b, a (43_arith.md R154, R155). -/
def execMdi (b a : Operand) (s : State) : Host.Outcome State Fault Refusal :=
  let r := resolveBasic b a s
  orDivFault 0x09 s.pc r (remainderResult mdiValue r)

/-- ADX b, a (43_arith.md R156). -/
def execAdx (b a : Operand) (s : State) : Host.Outcome State Fault Refusal := storeWithCarry adxValue b a s

/-- SBX b, a (43_arith.md R158). -/
def execSbx (b a : Operand) (s : State) : Host.Outcome State Fault Refusal := storeWithCarry sbxValue b a s

end Sys2Proof.Machine
end

