-- ==== Sys2Proof/Machine/Bitwise.lean ====
section
/-! DEFINITION. The bitwise and shift instructions (44_bitwise.md). -/

namespace Sys2Proof.Machine

/-- AND b, a (44_bitwise.md R170). -/
def execAnd (b a : Operand) (s : State) : Host.Outcome State Fault Refusal := storeResult (fun bv av => bv &&& av) b a s

/-- BOR b, a (44_bitwise.md R171). -/
def execBor (b a : Operand) (s : State) : Host.Outcome State Fault Refusal := storeResult (fun bv av => bv ||| av) b a s

/-- XOR b, a (44_bitwise.md R172). -/
def execXor (b a : Operand) (s : State) : Host.Outcome State Fault Refusal := storeResult (fun bv av => bv ^^^ av) b a s

/-- SHR b, a (44_bitwise.md R173, R176). -/
def execShr (b a : Operand) (s : State) : Host.Outcome State Fault Refusal := storeShift 0x0D shrValue b a s

/-- ASR b, a (44_bitwise.md R174, R176). -/
def execAsr (b a : Operand) (s : State) : Host.Outcome State Fault Refusal := storeShift 0x0E asrValue b a s

/-- SHL b, a (44_bitwise.md R175, R176). -/
def execShl (b a : Operand) (s : State) : Host.Outcome State Fault Refusal := storeShift 0x0F shlValue b a s

end Sys2Proof.Machine
end

