-- ==== Sys2Proof/Machine/Conditional.lean ====
section
/-! DEFINITION. The conditionals (45_conditional.md): the test holds, and the next instruction runs; or it fails, and the next
instruction is skipped. -/

namespace Sys2Proof.Machine

/-- IFB b, a: some bit in common (45_conditional.md R185). -/
def execIfb (b a : Operand) (s : State) : Host.Outcome State Fault Refusal :=
  conditional (fun bv av => (bv &&& av) != 0) b a s

/-- IFC b, a: no bit in common (45_conditional.md R186). -/
def execIfc (b a : Operand) (s : State) : Host.Outcome State Fault Refusal :=
  conditional (fun bv av => (bv &&& av) == 0) b a s

/-- IFE b, a: equal (45_conditional.md R187). -/
def execIfe (b a : Operand) (s : State) : Host.Outcome State Fault Refusal := conditional (fun bv av => bv == av) b a s

/-- IFN b, a: not equal (45_conditional.md R188). -/
def execIfn (b a : Operand) (s : State) : Host.Outcome State Fault Refusal := conditional (fun bv av => bv != av) b a s

/-- IFG b, a: unsigned greater (45_conditional.md R189). -/
def execIfg (b a : Operand) (s : State) : Host.Outcome State Fault Refusal :=
  conditional (fun bv av => decide (bv.toNat > av.toNat)) b a s

/-- IFA b, a: signed greater (45_conditional.md R190). -/
def execIfa (b a : Operand) (s : State) : Host.Outcome State Fault Refusal :=
  conditional (fun bv av => decide (s16 bv > s16 av)) b a s

/-- IFL b, a: unsigned less (45_conditional.md R191). -/
def execIfl (b a : Operand) (s : State) : Host.Outcome State Fault Refusal :=
  conditional (fun bv av => decide (bv.toNat < av.toNat)) b a s

/-- IFU b, a: signed less (45_conditional.md R192). -/
def execIfu (b a : Operand) (s : State) : Host.Outcome State Fault Refusal :=
  conditional (fun bv av => decide (s16 bv < s16 av)) b a s

end Sys2Proof.Machine
end

