-- ==== Sys2Proof/Machine/Move.lean ====
section
/-! DEFINITION. SET, STI and STD (42_move.md). -/

namespace Sys2Proof.Machine

/-- SET b, a (42_move.md R130, R131). -/
def execSet (b a : Operand) (s : State) : Host.Outcome State Fault Refusal :=
  storeResult (fun _ av => av) b a s

/-- STI b, a (42_move.md R132). -/
def execSti (b a : Operand) (s : State) : Host.Outcome State Fault Refusal := storeAndMove 1 b a s

/-- STD b, a (42_move.md R133). -/
def execStd (b a : Operand) (s : State) : Host.Outcome State Fault Refusal := storeAndMove 0xFFFF b a s

end Sys2Proof.Machine
end

