-- ==== Sys2Proof/Machine/Special.lean ====
section
/-! DEFINITION. The special instructions (46_special.md): JSR, IAG, IAS and the six stubs. -/

namespace Sys2Proof.Machine

/-- JSR a: the target is read before the push, and the word pushed is the address after the whole instruction
(46_special.md R200). -/
def execJsr (a : Operand) (s : State) : Host.Outcome State Fault Refusal :=
  let r := resolveSpecial a s
  .next { r.2.pushWord r.2.pc with pc := r.2.readLoc r.1 }

/-- IAG a (46_special.md R202). -/
def execIag (a : Operand) (s : State) : Host.Outcome State Fault Refusal :=
  let r := resolveSpecial a s
  .next (r.2.writeLoc r.1 r.2.ia)

/-- IAS a (46_special.md R203, R204). -/
def execIas (a : Operand) (s : State) : Host.Outcome State Fault Refusal :=
  let r := resolveSpecial a s
  .next { r.2 with ia := r.2.readLoc r.1 }

/-- INT a, a stub (46_special.md R207). -/
def execInt (a : Operand) (s : State) : Host.Outcome State Fault Refusal := execStub 0x08 a s

/-- RFI a, a stub: it restores nothing (46_special.md R208). -/
def execRfi (a : Operand) (s : State) : Host.Outcome State Fault Refusal := execStub 0x0B a s

/-- IAQ a, a stub (46_special.md R209). -/
def execIaq (a : Operand) (s : State) : Host.Outcome State Fault Refusal := execStub 0x0C a s

/-- HWN a, a stub: a is not written (46_special.md R210). -/
def execHwn (a : Operand) (s : State) : Host.Outcome State Fault Refusal := execStub 0x10 a s

/-- HWQ a, a stub (46_special.md R211). -/
def execHwq (a : Operand) (s : State) : Host.Outcome State Fault Refusal := execStub 0x11 a s

/-- HWI a, a stub (46_special.md R212). -/
def execHwi (a : Operand) (s : State) : Host.Outcome State Fault Refusal := execStub 0x12 a s

end Sys2Proof.Machine
end

