-- ==== Sys2Proof/Machine/Step.lean ====
section
/-! DEFINITION. One tick (41_cycle.md R110, R111, R117, R118), and where the host places the next instruction. -/

namespace Sys2Proof.Machine

/-- One tick: fetch and decode the word at PC; an undecodable word is a DecodeError that changes nothing else; otherwise
execute the instruction whole, the skip included, and apply the termination rule. A machine that is not Running does not
change (41_cycle.md R110). -/
def step (s : State) : Host.Outcome State Fault Refusal :=
  match s.run with
  | .running =>
    match decode s.fetchWord with
    | none => .next (s.takeFault .decodeError s.pc s.fetchWord)
    | some i => finishOutcome s.pc (exec i s)
  | .finished => .next s
  | .faulted _ _ _ => .next s

/-- `s` with the instruction of the opcode table's bits `w` at PC, its extra words after it (zero above `nbits`), and
Running, since only a Running machine fetches (assumption log 16). -/
def State.withFetchWord (s : State) (nbits w : Nat) : State :=
  let bits := w % 2 ^ nbits
  let m0 := Memory.write s.mem s.pc (BitVec.ofNat 16 bits)
  let m1 := Memory.write m0 (s.pc + 1) (BitVec.ofNat 16 (bits / 2 ^ 16))
  let m2 := Memory.write m1 (s.pc + 2) (BitVec.ofNat 16 (bits / 2 ^ 32))
  { s with mem := m2, run := .running }

end Sys2Proof.Machine
end

