-- ==== Sys2Proof/Machine/AsmText.lean ====
section
/-! DEFINITION. The assembler's text layer: lines, comments, tokens, literals, names and keywords (47_assembler.md R221 to R224,
R229, R246). A text is its list of characters. -/

namespace Sys2Proof.Machine

abbrev Text := List Char

/-- The error kinds (47_assembler.md R221). -/
inductive AsmError where
  | unknownMnemonic
  | badOperand
  | badBracket
  | operandCount
  | duplicateLabel
  | badLabel
  | unterminatedString
  | stringByte
  | literalRange
  | emptyData
  | programTooLong
  | undefinedLabel
deriving DecidableEq, Repr

/-- A line number, counted from 1, and an error kind; the message text is not specified (47_assembler.md R221). -/
structure Diagnostic where
  line : Nat
  kind : AsmError
deriving DecidableEq, Repr

/-- What `assemble` returns (47_assembler.md R220). -/
inductive AsmResult where
  | ok (words : List Word)
  | err (diagnostics : List Diagnostic)
deriving DecidableEq, Repr

/-- White space inside a line: blank, tab and carriage return (47_assembler.md R222). DESIGN CHOICE beyond the carriage return
(assumption log 10). -/
def isSpace (c : Char) : Bool := c == ' ' || c == '\t' || c == '\r'

/-- The double quote. -/
def quoteChar : Char := Char.ofNat 0x22

def trimText (t : Text) : Text := ((t.dropWhile isSpace).reverse.dropWhile isSpace).reverse

/-- The pieces between separators: one more than there are separators. -/
def splitText (sep : Char) : Text → List Text
  | [] => [[]]
  | c :: cs =>
    if c == sep then [] :: splitText sep cs
    else match splitText sep cs with
      | [] => [[c]]
      | p :: ps => (c :: p) :: ps

/-- The lines of a source, at line feeds (47_assembler.md R222). -/
def sourceLines (t : Text) : List Text := splitText '\n' t

/-- A line without its comment and the white space around it; stripping comes before anything else (47_assembler.md R222). -/
def stripLine (t : Text) : Text := trimText (t.takeWhile (· != ';'))

/-- The first token, up to white space. -/
def firstToken (t : Text) : Text := t.takeWhile fun c => !isSpace c

/-- What follows the first token, trimmed. -/
def afterToken (t : Text) : Text := trimText (t.dropWhile fun c => !isSpace c)

def upperText (t : Text) : Text := t.map Char.toUpper

/-! ### Literals (47_assembler.md R229) -/

def isDecDigit (c : Char) : Bool := decide (0x30 ≤ c.toNat) && decide (c.toNat ≤ 0x39)

def hexDigitValue (c : Char) : Option Nat :=
  if isDecDigit c then some (c.toNat - 0x30)
  else if 0x41 ≤ c.toNat ∧ c.toNat ≤ 0x46 then some (c.toNat - 0x41 + 10)
  else if 0x61 ≤ c.toNat ∧ c.toNat ≤ 0x66 then some (c.toNat - 0x61 + 10)
  else none

/-- The digits' value in a base, `none` where one is no digit; `acc` is the value so far. -/
def digitsValue (base : Nat) (digit : Char → Option Nat) : Text → Nat → Option Nat
  | [], acc => some acc
  | c :: cs, acc =>
    match digit c with
    | none => none
    | some d => digitsValue base digit cs (acc * base + d)

/-- At least one digit. -/
def digits1 (base : Nat) (digit : Char → Option Nat) (t : Text) : Option Nat :=
  match t with
  | [] => none
  | c :: cs => digitsValue base digit (c :: cs) 0

/-- An unsigned literal, decimal or hexadecimal. -/
def magnitude (t : Text) : Option Nat :=
  match t with
  | '0' :: 'x' :: h => digits1 16 hexDigitValue h
  | '0' :: 'X' :: h => digits1 16 hexDigitValue h
  | d => digits1 10 (fun c => if isDecDigit c then some (c.toNat - 0x30) else none) d

/-- A literal token's magnitude and whether a `-` leads it. -/
def signedLiteral (t : Text) : Option (Bool × Nat) :=
  match t with
  | '-' :: m => (magnitude m).map (true, ·)
  | m => (magnitude m).map (false, ·)

/-! ### Names and keywords (47_assembler.md R224, R230, R246) -/

def isNameStart (c : Char) : Bool :=
  (decide (0x41 ≤ c.toNat) && decide (c.toNat ≤ 0x5A)) || (decide (0x61 ≤ c.toNat) && decide (c.toNat ≤ 0x7A)) || c == '_'

/-- `[A-Za-z_][A-Za-z0-9_]*`. -/
def isName (t : Text) : Bool :=
  match t with
  | [] => false
  | c :: cs => isNameStart c && cs.all fun d => isNameStart d || isDecDigit d

/-- What a token is, before its position is known. -/
inductive Token where
  | reg (r : Reg)
  | pc
  | sp
  | ex
  | push
  | pop
  | peek
  | pick
  | literal (v : Word)
  /-- a literal of magnitude above 0xFFFF -/
  | outOfRange
  | label (name : Text)
  | unknown
deriving DecidableEq, Repr

/-- Register names and keywords, in capitals (47_assembler.md R230). -/
def keyword (t : Text) : Option Token :=
  match t with
  | ['A'] => some (.reg .a)
  | ['B'] => some (.reg .b)
  | ['C'] => some (.reg .c)
  | ['X'] => some (.reg .x)
  | ['Y'] => some (.reg .y)
  | ['Z'] => some (.reg .z)
  | ['I'] => some (.reg .i)
  | ['J'] => some (.reg .j)
  | ['P', 'C'] => some .pc
  | ['S', 'P'] => some .sp
  | ['E', 'X'] => some .ex
  | ['P', 'U', 'S', 'H'] => some .push
  | ['P', 'O', 'P'] => some .pop
  | ['P', 'E', 'E', 'K'] => some .peek
  | ['P', 'I', 'C', 'K'] => some .pick
  | _ => none

/-- Keywords ignore case; a literal is `trunc16` of its value; any other name is a label (47_assembler.md R229, R230, R246). -/
def classify (t : Text) : Token :=
  match keyword (upperText t) with
  | some k => k
  | none =>
    match signedLiteral t with
    | some (neg, m) =>
      if m > 0xFFFF then .outOfRange
      else .literal (if neg then BitVec.ofInt 16 (-(m : Int)) else BitVec.ofNat 16 m)
    | none => if isName t then .label t else .unknown

/-- A name a label may have: an identifier that is no register name or keyword in any case (47_assembler.md R224). -/
def validLabel (t : Text) : Bool := isName t && (keyword (upperText t)).isNone

end Sys2Proof.Machine
end

