-- ==== Sys2Proof/Machine/AsmOperand.lean ====
section
/-! DEFINITION. The assembler's operand grammar (47_assembler.md R230 to R233): a token to an operand mode and its extra word. -/

namespace Sys2Proof.Machine

/-- The position of an operand (40_operands.md R85). -/
inductive Side where
  | b
  | a
deriving DecidableEq, Repr

/-- An extra word before the labels are known: a literal, or a label's value plus an offset (47_assembler.md R234, R237). -/
inductive AsmExtra where
  | word (v : Word)
  | label (name : Text) (offset : Word)
deriving DecidableEq, Repr

/-- A parsed operand: its mode, and the extra word the mode takes, if it takes one (47_assembler.md R232). -/
structure AsmOperand where
  mode : Operand
  extra : Option AsmExtra
deriving DecidableEq, Repr

/-- The literals operand A holds inline, -1 to 30 (47_assembler.md R230). -/
def isSmall (v : Word) : Bool := v == 0xFFFF || decide (v.toNat ≤ 30)

/-- A literal is inline in operand A where it fits; in operand B it never is (47_assembler.md R230, R233). -/
def literalOperand (side : Side) (v : Word) : AsmOperand :=
  match side with
  | .b => ⟨.nextLit, some (.word v)⟩
  | .a => if isSmall v then ⟨.inlineLit v, none⟩ else ⟨.nextLit, some (.word v)⟩

/-- One bare token (47_assembler.md R230). -/
def tokenOperand (side : Side) (t : Token) : Except AsmError AsmOperand :=
  match t, side with
  | .reg r, _ => .ok ⟨.reg r, none⟩
  | .pc, _ => .ok ⟨.pc, none⟩
  | .sp, _ => .ok ⟨.sp, none⟩
  | .ex, _ => .ok ⟨.ex, none⟩
  | .push, .b => .ok ⟨.push, none⟩
  | .push, .a => .error .badOperand
  | .pop, .a => .ok ⟨.pop, none⟩
  | .pop, .b => .error .badOperand
  | .peek, _ => .ok ⟨.peek, none⟩
  | .pick, _ => .error .badOperand
  | .literal v, side => .ok (literalOperand side v)
  | .outOfRange, _ => .error .literalRange
  | .label n, _ => .ok ⟨.nextLit, some (.label n 0)⟩
  | .unknown, _ => .error .badOperand

/-- `PICK n`, n a literal or a label (47_assembler.md R230). -/
def pickOperand (t : Token) : Except AsmError AsmOperand :=
  match t with
  | .literal v => .ok ⟨.pick, some (.word v)⟩
  | .label n => .ok ⟨.pick, some (.label n 0)⟩
  | .outOfRange => .error .literalRange
  | .reg _ | .pc | .sp | .ex | .push | .pop | .peek | .pick | .unknown => .error .badOperand

/-- An operand without brackets (47_assembler.md R230). -/
def bareOperand (side : Side) (t : Text) : Except AsmError AsmOperand :=
  if t.any (· == '+') then .error .badBracket
  else match afterToken t with
    | [] => tokenOperand side (classify t)
    | arg => if classify (firstToken t) = .pick then pickOperand (classify arg) else .error .badOperand

/-- `[x]` (47_assembler.md R231). -/
def derefOperand (t : Token) : Except AsmError AsmOperand :=
  match t with
  | .reg r => .ok ⟨.ind r, none⟩
  | .literal v => .ok ⟨.nextInd, some (.word v)⟩
  | .label n => .ok ⟨.nextInd, some (.label n 0)⟩
  | .sp => .ok ⟨.peek, none⟩
  | .outOfRange => .error .literalRange
  | .pc | .ex | .push | .pop | .peek | .pick | .unknown => .error .badBracket

/-- `[r + y]` (47_assembler.md R231). -/
def regSum (r : Reg) (y : Token) : Except AsmError AsmOperand :=
  match y with
  | .literal v => .ok ⟨.indNext r, some (.word v)⟩
  | .label n => .ok ⟨.indNext r, some (.label n 0)⟩
  | .outOfRange => .error .literalRange
  | .reg _ | .pc | .sp | .ex | .push | .pop | .peek | .pick | .unknown => .error .badBracket

/-- `[SP + y]` (47_assembler.md R231). -/
def spSum (y : Token) : Except AsmError AsmOperand :=
  match y with
  | .literal v => .ok ⟨.pick, some (.word v)⟩
  | .label n => .ok ⟨.pick, some (.label n 0)⟩
  | .outOfRange => .error .literalRange
  | .reg _ | .pc | .sp | .ex | .push | .pop | .peek | .pick | .unknown => .error .badBracket

/-- `[v + y]` (47_assembler.md R231). DESIGN CHOICE (assumption log 21): a second literal above 0xFFFF is LiteralRange (R229),
though two literals are BadBracket. -/
def literalSum (v : Word) (y : Token) : Except AsmError AsmOperand :=
  match y with
  | .reg r => .ok ⟨.indNext r, some (.word v)⟩
  | .sp => .ok ⟨.pick, some (.word v)⟩
  | .label n => .ok ⟨.nextInd, some (.label n v)⟩
  | .outOfRange => .error .literalRange
  | .literal _ | .pc | .ex | .push | .pop | .peek | .pick | .unknown => .error .badBracket

/-- `[l + y]`, `l` a label (47_assembler.md R231). -/
def labelSum (l : Text) (y : Token) : Except AsmError AsmOperand :=
  match y with
  | .reg r => .ok ⟨.indNext r, some (.label l 0)⟩
  | .sp => .ok ⟨.pick, some (.label l 0)⟩
  | .literal v => .ok ⟨.nextInd, some (.label l v)⟩
  | .outOfRange => .error .literalRange
  | .label _ | .pc | .ex | .push | .pop | .peek | .pick | .unknown => .error .badBracket

/-- `[x + y]`, the terms in either order; the first bad term decides the error (47_assembler.md R231, R234). -/
def sumOperand (x y : Token) : Except AsmError AsmOperand :=
  match x with
  | .reg r => regSum r y
  | .sp => spSum y
  | .literal v => literalSum v y
  | .label l => labelSum l y
  | .outOfRange => .error .literalRange
  | .pc | .ex | .push | .pop | .peek | .pick | .unknown => .error .badBracket

/-- What stands between brackets (47_assembler.md R231). -/
def bracketOperand (inner : Text) : Except AsmError AsmOperand :=
  match (splitText '+' inner).map trimText with
  | [x] => derefOperand (classify x)
  | [x, y] => sumOperand (classify x) (classify y)
  | _ => .error .badBracket

/-- The text between an opening bracket at the start and a closing one at the end, with no other bracket. -/
def bracketContent (t : Text) : Option Text :=
  match t with
  | '[' :: cs =>
    match cs.reverse with
    | ']' :: r => if r.any (fun c => c == '[' || c == ']') then none else some r.reverse
    | _ => none
  | _ => none

/-- One trimmed operand. Any bracket makes it a bracket expression, well formed or BadBracket (assumption log 11). -/
def parseOperand (side : Side) (t : Text) : Except AsmError AsmOperand :=
  if t.any (fun c => c == '[' || c == ']') then
    match bracketContent t with
    | some inner => bracketOperand inner
    | none => .error .badBracket
  else bareOperand side t

end Sys2Proof.Machine
end

