-- ==== Sys2Proof/Machine/Assembler.lean ====
section
/-! DEFINITION. The two-pass assembler (47_assembler.md): statements, the DAT directive, pass 1, pass 2. It is a pure function,
and no rule of the machine depends on it (00_scope.md R19). -/

namespace Sys2Proof.Machine

/-- A parsed statement: an instruction with its extra words, B's before A's, or raw words (47_assembler.md R234, R236, R242). -/
inductive AsmStmt where
  | instr (i : Instr) (extras : List AsmExtra)
  | data (words : List Word)
deriving DecidableEq, Repr

/-- The number of words a statement emits, known before any label is (47_assembler.md R232, R242). -/
def AsmStmt.length : AsmStmt → Nat
  | .instr _ extras => 1 + extras.length
  | .data ws => ws.length

/-! ### Mnemonics (47_assembler.md R227; 30_encoding.md R70, R71) -/

/-- SET to MDI. -/
def arithMnemonics : List (Text × (Operand → Operand → Instr)) :=
  [(['S', 'E', 'T'], .set), (['A', 'D', 'D'], .add), (['S', 'U', 'B'], .sub), (['M', 'U', 'L'], .mul),
   (['M', 'L', 'I'], .mli), (['D', 'I', 'V'], .div), (['D', 'V', 'I'], .dvi), (['M', 'O', 'D'], .mod),
   (['M', 'D', 'I'], .mdi)]

/-- AND to SHL. -/
def bitwiseMnemonics : List (Text × (Operand → Operand → Instr)) :=
  [(['A', 'N', 'D'], .and), (['B', 'O', 'R'], .bor), (['X', 'O', 'R'], .xor), (['S', 'H', 'R'], .shr),
   (['A', 'S', 'R'], .asr), (['S', 'H', 'L'], .shl)]

/-- IFB to IFU. -/
def conditionalMnemonics : List (Text × (Operand → Operand → Instr)) :=
  [(['I', 'F', 'B'], .ifb), (['I', 'F', 'C'], .ifc), (['I', 'F', 'E'], .ife), (['I', 'F', 'N'], .ifn),
   (['I', 'F', 'G'], .ifg), (['I', 'F', 'A'], .ifa), (['I', 'F', 'L'], .ifl), (['I', 'F', 'U'], .ifu)]

/-- ADX to STD. -/
def carryMnemonics : List (Text × (Operand → Operand → Instr)) :=
  [(['A', 'D', 'X'], .adx), (['S', 'B', 'X'], .sbx), (['S', 'T', 'I'], .sti), (['S', 'T', 'D'], .std)]

/-- The 27 two-operand mnemonics. -/
def basicMnemonics : List (Text × (Operand → Operand → Instr)) :=
  arithMnemonics ++ (bitwiseMnemonics ++ (conditionalMnemonics ++ carryMnemonics))

/-- The 9 single-operand mnemonics; the stubs are accepted. -/
def specialMnemonics : List (Text × (Operand → Instr)) :=
  [(['J', 'S', 'R'], .jsr), (['I', 'N', 'T'], .int), (['I', 'A', 'G'], .iag), (['I', 'A', 'S'], .ias),
   (['R', 'F', 'I'], .rfi), (['I', 'A', 'Q'], .iaq), (['H', 'W', 'N'], .hwn), (['H', 'W', 'Q'], .hwq),
   (['H', 'W', 'I'], .hwi)]

/-- The entry under a name, in capitals. -/
def findName {α : Type} (name : Text) : List (Text × α) → Option α
  | [] => none
  | (n, x) :: rest => if n = name then some x else findName name rest

/-! ### The data directive (47_assembler.md R242, R243) -/

/-- The items of a DAT, split at commas outside double quotes; `inString` says whether a string is open. -/
def splitItems (inString : Bool) : Text → List Text
  | [] => [[]]
  | c :: cs =>
    if c == ',' && !inString then [] :: splitItems false cs
    else match splitItems (if c == quoteChar then !inString else inString) cs with
      | [] => [[c]]
      | p :: ps => (c :: p) :: ps

/-- A string's characters after its opening quote, up to the closing one, which must end the item. -/
def stringWords : Text → Except AsmError (List Word)
  | [] => .error .unterminatedString
  | c :: cs =>
    if c == quoteChar then (if cs.isEmpty then .ok [] else .error .badOperand)
    else if c.toNat < 0x20 ∨ 0x7E < c.toNat then .error .stringByte
    else match stringWords cs with
      | .ok ws => .ok (BitVec.ofNat 16 c.toNat :: ws)
      | .error e => .error e

/-- One trimmed DAT item: a string or a literal. -/
def itemWords (t : Text) : Except AsmError (List Word) :=
  match t with
  | [] => .error .badOperand
  | c :: cs =>
    if c == quoteChar then stringWords cs
    else match classify (c :: cs) with
      | .literal v => .ok [v]
      | .outOfRange => .error .literalRange
      | .reg _ | .pc | .sp | .ex | .push | .pop | .peek | .pick | .label _ | .unknown => .error .badOperand

/-- The items' words in order, or the first error from the left. -/
def itemsWords : List Text → Except AsmError (List Word)
  | [] => .ok []
  | t :: ts =>
    match itemWords t with
    | .error e => .error e
    | .ok ws =>
      match itemsWords ts with
      | .error e => .error e
      | .ok vs => .ok (ws ++ vs)

def parseData (t : Text) : Except AsmError AsmStmt :=
  match t with
  | [] => .error .emptyData
  | c :: cs =>
    match itemsWords ((splitItems false (c :: cs)).map trimText) with
    | .ok ws => .ok (.data ws)
    | .error e => .error e

/-! ### Statements (47_assembler.md R227, R228) -/

/-- The operand text split at commas; no text is no operand. -/
def operandTexts (t : Text) : List Text :=
  match t with
  | [] => []
  | c :: cs => (splitText ',' (c :: cs)).map trimText

/-- `OP b, a`: the count is checked before an operand is parsed, and B is parsed first (47_assembler.md R228, R234). -/
def parseBasic (f : Operand → Operand → Instr) (operands : List Text) : Except AsmError AsmStmt :=
  match operands with
  | [tb, ta] =>
    match parseOperand .b tb with
    | .error e => .error e
    | .ok b =>
      match parseOperand .a ta with
      | .error e => .error e
      | .ok a => .ok (.instr (f b.mode a.mode) (b.extra.toList ++ a.extra.toList))
  | _ => .error .operandCount

/-- `OP a` (47_assembler.md R228). -/
def parseSpecial (f : Operand → Instr) (operands : List Text) : Except AsmError AsmStmt :=
  match operands with
  | [ta] =>
    match parseOperand .a ta with
    | .error e => .error e
    | .ok a => .ok (.instr (f a.mode) a.extra.toList)
  | _ => .error .operandCount

/-- A nonempty trimmed statement: the first token, ignoring case, decides its class (47_assembler.md R227). -/
def parseStatement (t : Text) : Except AsmError AsmStmt :=
  let name := upperText (firstToken t)
  if name = ['D', 'A', 'T'] then parseData (afterToken t)
  else match findName name specialMnemonics with
    | some f => parseSpecial f (operandTexts (afterToken t))
    | none =>
      match findName name basicMnemonics with
      | some f => parseBasic f (operandTexts (afterToken t))
      | none => .error .unknownMnemonic

/-! ### Pass 1 (47_assembler.md R223 to R226, R234, R235) -/

abbrev Symbols := List (Text × Nat)

/-- What one line does to the symbol table and the output, and its first error. -/
structure LineResult where
  symbols : Symbols
  outcome : Except AsmError (Option AsmStmt)
deriving DecidableEq, Repr

/-- What stands after an optional label: nothing, one statement, or a second label, which is an error (R223). -/
def afterLabel (t : Text) : Except AsmError (Option AsmStmt) :=
  match t with
  | [] => .ok none
  | c :: cs =>
    if c == ':' then .error .badOperand
    else match parseStatement (c :: cs) with
      | .ok st => .ok (some st)
      | .error e => .error e

/-- One line at word offset `off`. A good label is defined even where the rest of the line has an error (R226). -/
def parseLine (symbols : Symbols) (off : Nat) (line : Text) : LineResult :=
  match stripLine line with
  | [] => ⟨symbols, .ok none⟩
  | c :: cs =>
    if c == ':' then
      let name := firstToken cs
      if validLabel name = false then ⟨symbols, .error .badLabel⟩
      else if (findName name symbols).isSome then ⟨symbols, .error .duplicateLabel⟩
      else ⟨symbols ++ [(name, off)], afterLabel (afterToken cs)⟩
    else ⟨symbols, afterLabel (c :: cs)⟩

/-- The largest program: all of memory (47_assembler.md R235). -/
def maxProgram : Nat := 65536

/-- What pass 1 leaves: the symbol table, the diagnostics in line order, and the statements that parsed, each with its
line. -/
structure Pass1 where
  symbols : Symbols
  diagnostics : List Diagnostic
  stmts : List (Nat × AsmStmt)
deriving DecidableEq, Repr

/-- Pass 1 over the lines from number `n` and offset `off` on. It never stops at an error (R234); the line that crosses the
limit is reported, once (R235). -/
def pass1 (n off : Nat) (symbols : Symbols) : List Text → Pass1
  | [] => ⟨symbols, [], []⟩
  | line :: lines =>
    let r := parseLine symbols off line
    match r.outcome with
    | .error e =>
      let p := pass1 (n + 1) off r.symbols lines
      { p with diagnostics := ⟨n, e⟩ :: p.diagnostics }
    | .ok none => pass1 (n + 1) off r.symbols lines
    | .ok (some st) =>
      let off' := off + st.length
      let p := pass1 (n + 1) off' r.symbols lines
      { p with
        diagnostics :=
          if off ≤ maxProgram ∧ maxProgram < off' then ⟨n, .programTooLong⟩ :: p.diagnostics else p.diagnostics
        stmts := (n, st) :: p.stmts }

/-! ### Pass 2 (47_assembler.md R236 to R238) -/

/-- An extra word's value; `none` where its label is not defined (R237). -/
def AsmExtra.value (symbols : Symbols) : AsmExtra → Option Word
  | .word v => some v
  | .label name offset => (findName name symbols).map fun n => BitVec.ofNat 16 n + offset

/-- The extra words' values, in order. -/
def extraWords (symbols : Symbols) : List AsmExtra → Option (List Word)
  | [] => some []
  | x :: xs =>
    match x.value symbols, extraWords symbols xs with
    | some v, some vs => some (v :: vs)
    | _, _ => none

/-- A statement's words: the opcode word, B's extra word, A's extra word; or the data (R236). -/
def AsmStmt.emit (symbols : Symbols) : AsmStmt → Option (List Word)
  | .instr i extras => (extraWords symbols extras).map (encode i :: ·)
  | .data ws => some ws

/-- Pass 2 stops at the first undefined label (R237). -/
def pass2 (symbols : Symbols) : List (Nat × AsmStmt) → Except Diagnostic (List Word)
  | [] => .ok []
  | (n, st) :: rest =>
    match st.emit symbols with
    | none => .error ⟨n, .undefinedLabel⟩
    | some ws =>
      match pass2 symbols rest with
      | .error d => .error d
      | .ok vs => .ok (ws ++ vs)

/-- The assembler on characters: any diagnostic means failure; the list is pass 1's diagnostics followed by pass 2's
(R237, R238; assumption log 12). -/
def assembleText (t : Text) : AsmResult :=
  let p := pass1 1 0 [] (sourceLines t)
  match p.diagnostics, pass2 p.symbols p.stmts with
  | [], .ok ws => .ok ws
  | d :: ds, .ok _ => .err (d :: ds)
  | ds, .error d => .err (ds ++ [d])

/-- `assemble` (47_assembler.md R220). -/
def assemble (source : String) : AsmResult := assembleText source.toList

end Sys2Proof.Machine
end

