-- ==== Sys2Proof/Machine/Load.lean ====
section
/-! DEFINITION. What the host may do: load a program (70_reset_and_hazards.md R290, R291) and write memory words between two ticks
(20_memory.md R49). Neither is part of a tick. -/

namespace Sys2Proof.Machine

/-- `initRegs` (00_scope.md R9; 10_state.md R22, R29, R31). -/
structure InitRegs where
  gpr : Regs
  ex : Word
  ia : Word
deriving DecidableEq, Repr

/-- Writes words one after another from an index on, modulo 65,536. -/
def Memory.writeFrom (m : Memory) (start : Word) : List Word → Memory
  | [] => m
  | w :: ws => Memory.writeFrom (Memory.write m start w) (start + 1) ws

/-- Program load: the only reset. `initMem` is the memory outside the program, as a canonical list (assumption log 9);
the parameters belong to the machine and stay. More than 65,536 words are refused and nothing changes. The machine comes
out Running from any run state, and nothing of an earlier run survives (70_reset_and_hazards.md R291, 60_exceptions.md R285). -/
def State.load (initRegs : InitRegs) (initMem : Memory) (prog : List Word) (s : State) :
    Host.Outcome State Fault Refusal :=
  if prog.length > 65536 then .refused (.programTooLong prog.length)
  else .next
    { regs := initRegs.gpr
      pc := 0
      sp := 0xFFFF
      ex := initRegs.ex
      ia := initRegs.ia
      mem := Memory.writeFrom initMem 0 prog
      run := .running
      params := s.params }

/-- The host's step between two ticks: any memory words, in the order given, and nothing else (20_memory.md R49,
92_eei_decisions.md D8). It may come in any run state. -/
def State.hostWrites (s : State) : List (Word × Word) → State
  | [] => s
  | (addr, v) :: ws => State.hostWrites (s.writeMem addr v) ws

end Sys2Proof.Machine
end

