-- ==== Sys2Proof/Safety.lean ====
section
/-! DEFINITION. The words the claims use: what "stores exactly this" means, where an instruction puts its result, which
conditions the IFx test, the settings of the original source, and the invariant of a run. -/

namespace Sys2Proof.Machine

/-- `t` is `s` with `v` at `loc` and every register, PC, SP, IA, memory word, the run state and the parameters otherwise
unchanged. A literal `loc` is none of them, so nothing changes (40_operands.md R101). EX is left to the caller. -/
structure StoredAt (loc : Location) (v : Word) (s t : State) : Prop where
  regs : ∀ q, t.regs.get q = if loc = .reg q then v else s.regs.get q
  pc : t.pc = if loc = .pc then v else s.pc
  sp : t.sp = if loc = .sp then v else s.sp
  ia : t.ia = s.ia
  mem : ∀ x, t.readMem x = if loc = .mem x then v else s.readMem x
  run : t.run = s.run
  params : t.params = s.params

/-- As `StoredAt`, and EX changes only where it is the destination. -/
def StoredPlain (loc : Location) (v : Word) (s t : State) : Prop :=
  StoredAt loc v s t ∧ t.ex = if loc = .ex then v else s.ex

/-- As `StoredAt`, and EX receives `e`; where EX is also the destination, `exDestOrder` says which of the two stays
(43_arith.md R141). -/
def StoredWithEx (loc : Location) (v e : Word) (s t : State) : Prop :=
  StoredAt loc v s t ∧ t.ex = if loc = .ex ∧ s.params.exDestOrder = .bLast then v else e

/-- As `StoredPlain`, and then I and J move by `d` (42_move.md R132, R133). -/
structure StoredAndMoved (loc : Location) (v d : Word) (s t : State) : Prop where
  regs : ∀ q, t.regs.get q =
    (if loc = .reg q then v else s.regs.get q) + if q = .i ∨ q = .j then d else 0
  pc : t.pc = if loc = .pc then v else s.pc
  sp : t.sp = if loc = .sp then v else s.sp
  ex : t.ex = if loc = .ex then v else s.ex
  ia : t.ia = s.ia
  mem : ∀ x, t.readMem x = if loc = .mem x then v else s.readMem x
  run : t.run = s.run
  params : t.params = s.params

/-- The registers, EX, IA, all of memory, the run state and the parameters are the same; PC and SP may differ. -/
structure SameButPcSp (s t : State) : Prop where
  regs : t.regs = s.regs
  ex : t.ex = s.ex
  ia : t.ia = s.ia
  mem : t.mem = s.mem
  run : t.run = s.run
  params : t.params = s.params

/-- Where an instruction puts its result: the location of B for the basic instructions that write, the location of A
for IAG, the stack word for JSR; nothing for the IFx, IAS and the stubs. -/
def storeTarget (i : Instr) (s : State) : Option Location :=
  match i with
  | .set b a | .add b a | .sub b a | .mul b a | .mli b a | .div b a | .dvi b a | .mod b a | .mdi b a =>
    some (resolveBasic b a s).b
  | .and b a | .bor b a | .xor b a | .shr b a | .asr b a | .shl b a => some (resolveBasic b a s).b
  | .adx b a | .sbx b a | .sti b a | .std b a => some (resolveBasic b a s).b
  | .iag a => some (resolveSpecial a s).1
  | .jsr a => some (.mem ((resolveSpecial a s).2.sp - 1))
  | .ifb _ _ | .ifc _ _ | .ife _ _ | .ifn _ _ | .ifg _ _ | .ifa _ _ | .ifl _ _ | .ifu _ _ => none
  | .ias _ | .int _ | .rfi _ | .iaq _ | .hwn _ | .hwq _ | .hwi _ => none

/-- The instructions that write EX as a side effect; MOD and MDI do so only by a zero divisor (10_state.md R28). -/
def writesEx (i : Instr) (s : State) : Prop :=
  match i with
  | .add _ _ | .sub _ _ | .mul _ _ | .mli _ _ | .div _ _ | .dvi _ _ => True
  | .adx _ _ | .sbx _ _ | .shr _ _ | .asr _ _ | .shl _ _ => True
  | .mod b a | .mdi b a => (resolveBasic b a s).av = 0
  | .set _ _ | .and _ _ | .bor _ _ | .xor _ _ | .sti _ _ | .std _ _ => False
  | .ifb _ _ | .ifc _ _ | .ife _ _ | .ifn _ _ | .ifg _ _ | .ifa _ _ | .ifl _ _ | .ifu _ _ => False
  | .jsr _ | .iag _ | .ias _ | .int _ | .rfi _ | .iaq _ | .hwn _ | .hwq _ | .hwi _ => False

/-- STI and STD, the only instructions that write a general register implicitly (10_state.md R21). -/
def movesIJ (i : Instr) : Prop :=
  match i with
  | .sti _ _ | .std _ _ => True
  | .set _ _ | .add _ _ | .sub _ _ | .mul _ _ | .mli _ _ | .div _ _ | .dvi _ _ | .mod _ _ | .mdi _ _ => False
  | .and _ _ | .bor _ _ | .xor _ _ | .shr _ _ | .asr _ _ | .shl _ _ | .adx _ _ | .sbx _ _ => False
  | .ifb _ _ | .ifc _ _ | .ife _ _ | .ifn _ _ | .ifg _ _ | .ifa _ _ | .ifl _ _ | .ifu _ _ => False
  | .jsr _ | .iag _ | .ias _ | .int _ | .rfi _ | .iaq _ | .hwn _ | .hwq _ | .hwi _ => False

/-- The eight IFx, the only instructions that skip (45_conditional.md R193, R194). -/
def isConditional (i : Instr) : Prop :=
  match i with
  | .ifb _ _ | .ifc _ _ | .ife _ _ | .ifn _ _ | .ifg _ _ | .ifa _ _ | .ifl _ _ | .ifu _ _ => True
  | .set _ _ | .add _ _ | .sub _ _ | .mul _ _ | .mli _ _ | .div _ _ | .dvi _ _ | .mod _ _ | .mdi _ _ => False
  | .and _ _ | .bor _ _ | .xor _ _ | .shr _ _ | .asr _ _ | .shl _ _ | .adx _ _ | .sbx _ _ => False
  | .sti _ _ | .std _ _ => False
  | .jsr _ | .iag _ | .ias _ | .int _ | .rfi _ | .iaq _ | .hwn _ | .hwq _ | .hwi _ => False

/-- The eight IFx on the same operands, each with the condition it tests (45_conditional.md R185 to R192). The sense of
IFE and IFN is the spec's own general knowledge (X4; assumption log 7). -/
def ForEachIf (b a : Operand) (bv av : Word) (P : Instr → Prop → Prop) : Prop :=
  P (.ifb b a) (bv &&& av ≠ 0) ∧ P (.ifc b a) (bv &&& av = 0) ∧
  P (.ife b a) (bv = av) ∧ P (.ifn b a) (bv ≠ av) ∧
  P (.ifg b a) (bv.toNat > av.toNat) ∧ P (.ifa b a) (bv.toInt > av.toInt) ∧
  P (.ifl b a) (bv.toNat < av.toNat) ∧ P (.ifu b a) (bv.toInt < av.toInt)

/-- The six stubs on the same operand, each with its opcode number (46_special.md R207 to R212). -/
def ForEachStub (a : Operand) (P : Instr → Word → Prop) : Prop :=
  P (.int a) 0x08 ∧ P (.rfi a) 0x0B ∧ P (.iaq a) 0x0C ∧ P (.hwn a) 0x10 ∧ P (.hwq a) 0x11 ∧ P (.hwi a) 0x12

/-- The settings of the original source (60_exceptions.md R272). -/
def sourceSettings (p : Params) : Prop :=
  p.skipInvalid = .fault ∧ p.signedDivOverflow = .wrap ∧ p.wideShift = .math ∧ p.stubPolicy = .nop

/-- What holds along every run: memory is canonical, Finished is reached only under the termination rule, and a recorded
fault is one of the causes of 60_exceptions.md R272 with the fields it records. -/
structure Inv (s : State) : Prop where
  mem : Memory.wf s.mem = true
  finished : s.run = .finished → s.params.haltDetect = true
  decodeError : ∀ pc w, s.run = .faulted .decodeError pc w → s.pc = pc ∧ s.readMem pc = w ∧ decode w = none
  arithFault : ∀ pc w, s.run = .faulted .arithFault pc w →
    (s.params.signedDivOverflow = .fault ∧ (w = 0x07 ∨ w = 0x09)) ∨
    (s.params.wideShift = .fault ∧ (w = 0x0D ∨ w = 0x0E ∨ w = 0x0F))
  stub : ∀ pc w, s.run = .faulted .stub pc w →
    s.params.stubPolicy = .refuse ∧ (w = 0x08 ∨ w = 0x0B ∨ w = 0x0C ∨ w = 0x10 ∨ w = 0x11 ∨ w = 0x12)

end Sys2Proof.Machine
end

