-- ==== Sys2Proof/Certificates/Slice0/Obligations.lean ====
section
/-! DEFINITION. What is to be proved of the model: the numbered rules of the spec, in the words of Safety.lean. -/

open Sys2Proof Sys2Proof.Machine

/-! ### Encoding (30_encoding.md) -/

/-- Words written out from the spec's encodings (R78, and the vectors EN of 95_test_vectors.md). The opcode numbers are the
spec's own general knowledge (D2; assumption log 7). -/
def Obligations.SpecExampleWordsDecode : Prop :=
  decode 0x7C01 = some (.set (.reg .a) .nextLit) ∧
  decode 0x8801 = some (.set (.reg .a) (.inlineLit 1)) ∧
  decode 0x9420 = some (.jsr (.inlineLit 4)) ∧
  decode 0x3DDE = some (.sti (.ind .i) (.ind .j)) ∧
  decode 0x4601 = some (.set (.indNext .a) (.indNext .b)) ∧
  decode 0x6301 = some (.set .push .pop) ∧
  decode 0x8B83 = some (.sub .pc (.inlineLit 1)) ∧
  decode 0x9812 = some (.ife (.reg .a) (.inlineLit 5)) ∧
  decode 0x880F = some (.shl (.reg .a) (.inlineLit 1)) ∧
  decode 0x7D40 = some (.ias .nextLit) ∧
  decode 0x0000 = none ∧ decode 0x0018 = none

/-- R77: encoding and decoding are inverse, with every operand at every value the encoding admits. -/
def Obligations.DecodeAndEncodeAreInverse : Prop :=
  (∀ i : Instr, i.wf = true → decode (encode i) = some i) ∧
  (∀ (w : Word) (i : Instr), decode w = some i → i.wf = true ∧ encode i = w)

/-- R63: bits 4:0 alone tell the format, and each format's fields stand at its bits. -/
def Obligations.LowFiveBitsTellTheFormat : Prop :=
  ∀ (w : Word) (i : Instr), decode w = some i →
    (w.toNat % 32 = 0 → i.operandB = none ∧ i.opcode.toNat = w.toNat / 32 % 32 ∧
      i.operandA = decodeA (BitVec.ofNat 6 (w.toNat / 1024))) ∧
    (w.toNat % 32 ≠ 0 → i.operandB = some (decodeB (BitVec.ofNat 5 (w.toNat / 32 % 32))) ∧
      i.opcode.toNat = w.toNat % 32 ∧ i.operandA = decodeA (BitVec.ofNat 6 (w.toNat / 1024)))

/-- R72, R73, R75: the decoder is total, and it refuses exactly the unassigned opcodes. The assignment is the spec's own
general knowledge (D2; assumption log 7). -/
def Obligations.DecodeErrorsAreTheUnassignedOpcodes : Prop :=
  ∀ w : Word, decode w = none ↔
    (w.toNat % 32 = 0x18 ∨ w.toNat % 32 = 0x19 ∨ w.toNat % 32 = 0x1C ∨ w.toNat % 32 = 0x1D) ∨
    (w.toNat % 32 = 0 ∧
      w.toNat / 32 % 32 ∉ [0x01, 0x08, 0x09, 0x0A, 0x0B, 0x0C, 0x10, 0x11, 0x12])

/-- R64: the length is 1 plus one for each operand that consumes an extra word, and the opcode word alone gives it. -/
def Obligations.LengthIsKnownFromTheOpcodeWord : Prop :=
  ∀ (w : Word) (i : Instr), decode w = some i →
    wordLength w = 1 + i.operandA.extra + (match i.operandB with | some b => b.extra | none => 0) ∧
    1 ≤ wordLength w ∧ wordLength w ≤ 3

/-! ### Operand evaluation (40_operands.md) -/

/-- R86, R87, R88, R90, R97, R98: the register modes and the next-word modes, at their field values in both positions. -/
def Obligations.RegisterAndNextWordModes : Prop :=
  (∀ n : Nat, n < 8 →
    decodeB (BitVec.ofNat 5 n) = .reg (Reg.ofIndex n) ∧ decodeA (BitVec.ofNat 6 n) = .reg (Reg.ofIndex n) ∧
    decodeB (BitVec.ofNat 5 (0x08 + n)) = .ind (Reg.ofIndex n) ∧
    decodeA (BitVec.ofNat 6 (0x08 + n)) = .ind (Reg.ofIndex n) ∧
    decodeB (BitVec.ofNat 5 (0x10 + n)) = .indNext (Reg.ofIndex n) ∧
    decodeA (BitVec.ofNat 6 (0x10 + n)) = .indNext (Reg.ofIndex n) ∧ (Reg.ofIndex n).index = n) ∧
  decodeB 0x1E = .nextInd ∧ decodeA 0x1E = .nextInd ∧ decodeB 0x1F = .nextLit ∧ decodeA 0x1F = .nextLit ∧
  ∀ (s : State) (r : Reg),
    s.nextWord = (s.readMem s.pc, { s with pc := s.pc + 1 }) ∧
    eval (.reg r) s = (.reg r, s) ∧
    eval (.ind r) s = (.mem (s.regs.get r), s) ∧
    eval (.indNext r) s = (.mem (s.regs.get r + s.readMem s.pc), { s with pc := s.pc + 1 }) ∧
    eval .nextInd s = (.mem (s.readMem s.pc), { s with pc := s.pc + 1 }) ∧
    eval .nextLit s = (.lit (s.readMem s.pc), { s with pc := s.pc + 1 })

/-- R89, R91, R92, R93, R94, R96: POP and PUSH share field 0x18; PEEK, PICK, SP and EX. -/
def Obligations.StackAndSpecialModes : Prop :=
  decodeA 0x18 = .pop ∧ decodeB 0x18 = .push ∧
  decodeA 0x19 = .peek ∧ decodeB 0x19 = .peek ∧ decodeA 0x1A = .pick ∧ decodeB 0x1A = .pick ∧
  decodeA 0x1B = .sp ∧ decodeB 0x1B = .sp ∧ decodeA 0x1D = .ex ∧ decodeB 0x1D = .ex ∧
  ∀ s : State,
    eval .pop s = (.mem s.sp, { s with sp := s.sp + 1 }) ∧
    eval .push s = (.mem (s.sp - 1), { s with sp := s.sp - 1 }) ∧
    eval .peek s = (.mem s.sp, s) ∧
    eval .pick s = (.mem (s.sp + s.readMem s.pc), { s with pc := s.pc + 1 }) ∧
    eval .sp s = (.sp, s) ∧
    eval .ex s = (.ex, s)

/-- R67, R68, R95, R99: PC is field 0x1C on both sides, operand A's fields 0x20 to 0x3F are the literals -1 to 30 in rising
order, and operand B has no literal field. The order of the literals is the spec's own general knowledge (D4; assumption
log 7). -/
def Obligations.PcAndInlineLiteralModes : Prop :=
  decodeA 0x1C = .pc ∧ decodeB 0x1C = .pc ∧
  (∀ f : BitVec 6, 0x20 ≤ f.toNat → ∃ v : Word, decodeA f = .inlineLit v ∧ v.toInt = (f.toNat : Int) - 0x21) ∧
  (∀ (f : BitVec 5) (v : Word), decodeB f ≠ .inlineLit v) ∧
  ∀ (s : State) (v : Word), eval .pc s = (.pc, s) ∧ eval (.inlineLit v) s = (.lit v, s)

/-- R45: [register + next word], [SP + next word], SP decrement and increment, and PC increment (by the opcode word, a next
word and a skip) wrap modulo 65,536. -/
def Obligations.AddressesWrapModulo65536 : Prop :=
  ∀ (s : State) (r : Reg) (x : Word),
    ((eval (.indNext r) s).1 = .mem x → x.toNat = ((s.regs.get r).toNat + (s.readMem s.pc).toNat) % 65536) ∧
    ((eval .pick s).1 = .mem x → x.toNat = (s.sp.toNat + (s.readMem s.pc).toNat) % 65536) ∧
    ((eval .push s).1 = .mem x → x.toNat = (s.sp.toNat + 65535) % 65536 ∧ (eval .push s).2.sp = x) ∧
    (eval .pop s).2.sp.toNat = (s.sp.toNat + 1) % 65536 ∧
    s.nextWord.2.pc.toNat = (s.pc.toNat + 1) % 65536 ∧
    s.advancePc.pc.toNat = (s.pc.toNat + 1) % 65536 ∧
    (s.pushWord x).sp.toNat = (s.sp.toNat + 65535) % 65536 ∧
    (decode s.fetchWord ≠ none → s.skipNext.pc.toNat = (s.pc.toNat + wordLength s.fetchWord) % 65536) ∧
    (s.regs.get r = 0xFFFF → s.readMem s.pc = 2 → (eval (.indNext r) s).1 = .mem 0x0001)

/-- R85 to R99: evaluating the operands moves PC past the instruction's words and SP by its PUSH and POP, and nothing
else. -/
def Obligations.EvaluationMovesOnlyPcAndSp : Prop :=
  ∀ (b a : Operand) (s : State),
    SameButPcSp s (resolveBasic b a s).st ∧
    (resolveBasic b a s).st.pc = s.pc + BitVec.ofNat 16 (1 + b.extra + a.extra) ∧
    (resolveBasic b a s).st.sp =
      s.sp + (if b = .pop then 1 else 0) + (if a = .pop then 1 else 0) - (if b = .push then 1 else 0)
        - (if a = .push then 1 else 0) ∧
    SameButPcSp s (resolveSpecial a s).2 ∧
    (resolveSpecial a s).2.pc = s.pc + BitVec.ofNat 16 (1 + a.extra) ∧
    (resolveSpecial a s).2.sp = s.sp + (if a = .pop then 1 else 0) - (if a = .push then 1 else 0)

/-- R102: B is evaluated first, and its effects are part of A's context; a special instruction evaluates A only. -/
def Obligations.BIsEvaluatedBeforeA : Prop :=
  ∀ (b a : Operand) (s : State),
    (resolveBasic b a s).b = (eval b { s with pc := s.pc + 1 }).1 ∧
    (resolveBasic b a s).a = (eval a (eval b { s with pc := s.pc + 1 }).2).1 ∧
    (resolveBasic b a s).st = (eval a (eval b { s with pc := s.pc + 1 }).2).2 ∧
    resolveSpecial a s = eval a { s with pc := s.pc + 1 }

/-- R100, R101: every location reads its register or word; a write is read back there and nowhere else; a write to a literal
is discarded, and the literal's next word stays consumed. -/
def Obligations.LocationsReadBackWhatIsWritten : Prop :=
  ∀ (s : State) (loc : Location) (v : Word),
    (∀ r, s.readLoc (.reg r) = s.regs.get r) ∧ s.readLoc .sp = s.sp ∧ s.readLoc .pc = s.pc ∧
    s.readLoc .ex = s.ex ∧ (∀ x, s.readLoc (.mem x) = s.readMem x) ∧ (∀ u, s.readLoc (.lit u) = u) ∧
    ((∀ u, loc ≠ .lit u) → (s.writeLoc loc v).readLoc loc = v) ∧
    StoredPlain loc v s (s.writeLoc loc v) ∧
    (∀ u, s.writeLoc (.lit u) v = s) ∧
    (∀ a : Operand, ∃ t, exec (.set .nextLit a) s = .next t ∧ t.pc = s.pc + BitVec.ofNat 16 (2 + a.extra) ∧
      t.regs = s.regs ∧ t.mem = s.mem)

/-- R105: the worked cases of operand order and timing. They rest on the spec's own decision D9 (assumption log 20).
-/
def Obligations.WorkedCasesOfOperandTiming : Prop :=
  (∀ s : State, ∃ t, exec (.set (.reg .a) .pc) s = .next t ∧ t.regs.get .a = s.pc + 1 ∧ t.pc = s.pc + 1) ∧
  (∀ s : State, ∃ t, exec (.set .nextInd .pc) s = .next t ∧ t.readMem (s.readMem (s.pc + 1)) = s.pc + 2) ∧
  (∀ s : State, Memory.wf s.mem = true → exec (.set .push .pop) s = .next { s with pc := s.pc + 1 }) ∧
  (∀ s : State, ∃ t, exec (.set .push .sp) s = .next t ∧ t.sp = s.sp - 1 ∧ t.readMem (s.sp - 1) = s.sp - 1)

/-! ### Move (42_move.md) -/

/-- R130: SET writes A's value to B and changes nothing else; EX is not written. The values are read after both
evaluations, the spec's own decision (D9; assumption log 20). -/
def Obligations.SetStoresItsSource : Prop :=
  ∀ (b a : Operand) (s : State),
    let r := resolveBasic b a s
    ∃ t, exec (.set b a) s = .next t ∧ StoredPlain r.b r.av r.st t

/-- R130's property: `SET r, v` followed by one tick leaves the register at v and PC advanced by the instruction's length,
with v as a next word and as an inline literal. -/
def Obligations.SetLiteralTakesOneTick : Prop :=
  ∀ (s : State) (r : Reg) (v : Word), s.run = .running →
    (decode s.fetchWord = some (.set (.reg r) .nextLit) → s.readMem (s.pc + 1) = v →
      ∃ t, step s = .next t ∧ t.regs.get r = v ∧ t.pc = s.pc + 2 ∧ t.run = .running) ∧
    (decode s.fetchWord = some (.set (.reg r) (.inlineLit v)) →
      ∃ t, step s = .next t ∧ t.regs.get r = v ∧ t.pc = s.pc + 1 ∧ t.run = .running)

/-- R132, R133: STI and STD write first and then move I and J, both by one and modulo 65,536. The order is the spec's own
choice (D19). -/
def Obligations.StiAndStdStoreThenMoveIAndJ : Prop :=
  ∀ (b a : Operand) (s : State),
    let r := resolveBasic b a s
    (∃ t, exec (.sti b a) s = .next t ∧ StoredAndMoved r.b r.av 1 r.st t) ∧
    (∃ t, exec (.std b a) s = .next t ∧ StoredAndMoved r.b r.av (-1) r.st t)

/-! ### Arithmetic (43_arith.md) -/

/-- R140, R142: ADD sets EX to 1 on unsigned carry, SUB to 0xFFFF on unsigned borrow, else to 0. Where B is EX,
`exDestOrder` decides, the spec's own parameter (D10; assumption log 20). -/
def Obligations.AddAndSubSetCarryAndBorrow : Prop :=
  ∀ (b a : Operand) (s : State),
    let r := resolveBasic b a s
    (∃ t, exec (.add b a) s = .next t ∧
      StoredWithEx r.b (r.bv + r.av) (if r.bv.toNat + r.av.toNat > 65535 then 1 else 0) r.st t) ∧
    (∃ t, exec (.sub b a) s = .next t ∧
      StoredWithEx r.b (r.bv - r.av) (if r.bv.toNat < r.av.toNat then 0xFFFF else 0) r.st t)

/-- R144 to R147: MUL and MLI store the whole product, EX the high word and the result the low word. The formulas are the
spec's own general knowledge (D53; assumption log 7). -/
def Obligations.MultipliesStoreTheWholeProduct : Prop :=
  ∀ (b a : Operand) (s : State),
    let r := resolveBasic b a s
    (∃ t v e, exec (.mul b a) s = .next t ∧ StoredWithEx r.b v e r.st t ∧
      e.toNat * 65536 + v.toNat = r.bv.toNat * r.av.toNat) ∧
    (∃ t v e, exec (.mli b a) s = .next t ∧ StoredWithEx r.b v e r.st t ∧
      e.toInt * 65536 + v.toNat = r.bv.toInt * r.av.toInt)

/-- R148, R149: DIV stores the quotient and its first 16 fractional bits, and 0 and 0 by a zero divisor (D53; assumption
log 7). -/
def Obligations.DivStoresQuotientAndFraction : Prop :=
  ∀ (b a : Operand) (s : State),
    let r := resolveBasic b a s
    ∃ t v e, exec (.div b a) s = .next t ∧ StoredWithEx r.b v e r.st t ∧
      (r.av = 0 → v = 0 ∧ e = 0) ∧
      (r.av ≠ 0 → v.toNat * 65536 + e.toNat = r.bv.toNat * 65536 / r.av.toNat)

/-- R150, R151: DVI rounds both quotients toward zero, gives 0 and 0 by a zero divisor, and under `wrap` gives 0x8000 and 0
for -32768 by -1 (D12, D53; assumption log 7). -/
def Obligations.DviRoundsTowardZero : Prop :=
  ∀ (b a : Operand) (s : State),
    let r := resolveBasic b a s
    (s.params.signedDivOverflow = .wrap ∨ ¬ (r.bv = 0x8000 ∧ r.av = 0xFFFF)) →
    ∃ t v e, exec (.dvi b a) s = .next t ∧ StoredWithEx r.b v e r.st t ∧
      (r.av = 0 → v = 0 ∧ e = 0) ∧
      (r.av ≠ 0 → ¬ (r.bv = 0x8000 ∧ r.av = 0xFFFF) →
        v.toInt = r.bv.toInt.tdiv r.av.toInt ∧ e = BitVec.ofInt 16 ((r.bv.toInt * 65536).tdiv r.av.toInt)) ∧
      (r.bv = 0x8000 → r.av = 0xFFFF → v = 0x8000 ∧ e = 0)

/-- R152 to R155: MOD and MDI store the remainder and leave EX alone; by a zero divisor they store 0, and EX is cleared or
kept as `modZeroEx` says (D12, D13, D52). -/
def Obligations.ModAndMdiStoreTheRemainder : Prop :=
  ∀ (b a : Operand) (s : State),
    let r := resolveBasic b a s
    (∃ t, exec (.mod b a) s = .next t ∧
      (r.av ≠ 0 → ∃ v, StoredPlain r.b v r.st t ∧ v.toNat = r.bv.toNat % r.av.toNat) ∧
      (r.av = 0 → s.params.modZeroEx = .clear → StoredWithEx r.b 0 0 r.st t) ∧
      (r.av = 0 → s.params.modZeroEx = .keep → StoredPlain r.b 0 r.st t)) ∧
    ((s.params.signedDivOverflow = .wrap ∨ ¬ (r.bv = 0x8000 ∧ r.av = 0xFFFF)) →
      ∃ t, exec (.mdi b a) s = .next t ∧
        (r.av ≠ 0 → ∃ v, StoredPlain r.b v r.st t ∧ v.toInt = r.bv.toInt.tmod r.av.toInt) ∧
        (r.av = 0 → s.params.modZeroEx = .clear → StoredWithEx r.b 0 0 r.st t) ∧
        (r.av = 0 → s.params.modZeroEx = .keep → StoredPlain r.b 0 r.st t))

/-- R151, R155, R274: under `signedDivOverflow = fault`, DVI and MDI of -32768 by -1 take ArithFault after operand
evaluation and before any write, recording pc0 and the opcode number. The opcode numbers are the spec's own general
knowledge (D2; assumption log 7). -/
def Obligations.SignedDivisionOverflowFaults : Prop :=
  ∀ (b a : Operand) (s : State),
    let r := resolveBasic b a s
    s.params.signedDivOverflow = .fault → r.bv = 0x8000 → r.av = 0xFFFF →
      exec (.dvi b a) s = .next { r.st with run := .faulted .arithFault s.pc 0x07 } ∧
      exec (.mdi b a) s = .next { r.st with run := .faulted .arithFault s.pc 0x09 }

/-- R156 to R158: ADX and SBX add the carry-in; the result word is the same under both readings of EX, and EX reports
leaving the word's range upwards or downwards (D14, D53; assumption log 7). -/
def Obligations.AdxAndSbxUseTheCarryIn : Prop :=
  ∀ (b a : Operand) (s : State),
    let r := resolveBasic b a s
    let c : Int := if s.params.carryInSigned = true then s.ex.toInt else s.ex.toNat
    let carry := fun t : Int => if t > 65535 then (1 : Word) else if t < 0 then 0xFFFF else 0
    (∃ t, exec (.adx b a) s = .next t ∧
      StoredWithEx r.b (r.bv + r.av + s.ex) (carry (r.bv.toNat + r.av.toNat + c)) r.st t) ∧
    (∃ t, exec (.sbx b a) s = .next t ∧
      StoredWithEx r.b (r.bv - r.av + s.ex) (carry (r.bv.toNat - r.av.toNat + c)) r.st t)

/-- R156's example, for all values: ADD on the low words and then ADX on the high words is 32-bit addition, under both
readings of the carry-in. It rests on the spec's own formulas (D14, D53; assumption log 7). -/
def Obligations.AddThenAdxAddsTwoWords : Prop :=
  ∀ (s t u : State) (lo hi lo' hi' : Reg), lo ≠ hi → lo ≠ hi' →
    exec (.add (.reg lo) (.reg lo')) s = .next t → exec (.adx (.reg hi) (.reg hi')) t = .next u →
      (u.regs.get hi).toNat * 65536 + (u.regs.get lo).toNat =
        ((s.regs.get hi).toNat * 65536 + (s.regs.get lo).toNat +
          ((s.regs.get hi').toNat * 65536 + (s.regs.get lo').toNat)) % 4294967296

/-- R159: SUB on the low words and then SBX on the high words is 32-bit subtraction under both readings of the
carry-in, and under `carryInSigned` the last EX reports the 32-bit borrow. It rests on the spec's own formulas (D14,
D53; assumption log 7). -/
def Obligations.SubThenSbxSubtractsTwoWords : Prop :=
  ∀ (s t u : State) (lo hi lo' hi' : Reg), lo ≠ hi → lo ≠ hi' →
    exec (.sub (.reg lo) (.reg lo')) s = .next t → exec (.sbx (.reg hi) (.reg hi')) t = .next u →
      ((u.regs.get hi).toNat * 65536 + (u.regs.get lo).toNat =
        ((s.regs.get hi).toNat * 65536 + (s.regs.get lo).toNat + 4294967296 -
          ((s.regs.get hi').toNat * 65536 + (s.regs.get lo').toNat)) % 4294967296) ∧
      (s.params.carryInSigned = true →
        u.ex = if (s.regs.get hi).toNat * 65536 + (s.regs.get lo).toNat <
          (s.regs.get hi').toNat * 65536 + (s.regs.get lo').toNat then 0xFFFF else 0)

/-! ### Bitwise and shifts (44_bitwise.md) -/

/-- R170, R171, R172: AND, BOR and XOR work bit by bit and do not write EX. For R131, which says otherwise of EX, see
assumption log 15; the time of reading is the spec's decision D9. -/
def Obligations.BitwiseWorkBitByBit : Prop :=
  ∀ (b a : Operand) (s : State),
    let r := resolveBasic b a s
    (∃ t v, exec (.and b a) s = .next t ∧ StoredPlain r.b v r.st t ∧
      ∀ k, k < 16 → v.getLsbD k = (r.bv.getLsbD k && r.av.getLsbD k)) ∧
    (∃ t v, exec (.bor b a) s = .next t ∧ StoredPlain r.b v r.st t ∧
      ∀ k, k < 16 → v.getLsbD k = (r.bv.getLsbD k || r.av.getLsbD k)) ∧
    (∃ t v, exec (.xor b a) s = .next t ∧ StoredPlain r.b v r.st t ∧
      ∀ k, k < 16 → v.getLsbD k = (r.bv.getLsbD k != r.av.getLsbD k))

/-- R173 to R177: result and EX of a shift are the two halves of one 32-bit shift, for every count under `wideShift = math`
and for counts below 16 under either setting (D11, D53; assumption log 7). -/
def Obligations.ShiftsKeepTheBitsShiftedOut : Prop :=
  ∀ (b a : Operand) (s : State),
    let r := resolveBasic b a s
    (s.params.wideShift = .math ∨ r.av.toNat < 16) →
    (∃ t v e, exec (.shr b a) s = .next t ∧ StoredWithEx r.b v e r.st t ∧
      v.toNat * 65536 + e.toNat = r.bv.toNat * 65536 / 2 ^ r.av.toNat) ∧
    (∃ t v e, exec (.asr b a) s = .next t ∧ StoredWithEx r.b v e r.st t ∧
      v.toInt * 65536 + e.toNat = r.bv.toInt * 65536 / (2 : Int) ^ r.av.toNat) ∧
    (∃ t v e, exec (.shl b a) s = .next t ∧ StoredWithEx r.b v e r.st t ∧
      e.toNat * 65536 + v.toNat = r.bv.toNat * 2 ^ r.av.toNat % 4294967296)

/-- R176, R274: under `wideShift = fault`, a count of 16 or more takes ArithFault after operand evaluation and before
any write, recording pc0 and the opcode number. The opcode numbers are the spec's own general knowledge (D2;
assumption log 7). -/
def Obligations.WideShiftsFaultWhereSet : Prop :=
  ∀ (b a : Operand) (s : State),
    let r := resolveBasic b a s
    s.params.wideShift = .fault → 16 ≤ r.av.toNat →
      exec (.shr b a) s = .next { r.st with run := .faulted .arithFault s.pc 0x0D } ∧
      exec (.asr b a) s = .next { r.st with run := .faulted .arithFault s.pc 0x0E } ∧
      exec (.shl b a) s = .next { r.st with run := .faulted .arithFault s.pc 0x0F }

/-! ### Conditionals (45_conditional.md, 41_cycle.md R114 to R116) -/

/-- R185 to R194: an IFx writes nothing; where its condition holds PC stands after it, and where it fails PC also
passes the whole next instruction, exactly one, whatever that is (D16, D49, D51). The sense of IFE and IFN is the
spec's own general knowledge (X4; assumption log 7). -/
def Obligations.ConditionalsRunOrSkipOneInstruction : Prop :=
  ∀ (b a : Operand) (s : State),
    let r := resolveBasic b a s
    ForEachIf b a r.bv r.av fun i c =>
      (c → exec i s = .next r.st) ∧
      (¬ c → ∀ j, decode (s.readMem r.st.pc) = some j →
        exec i s = .next { r.st with pc := r.st.pc + BitVec.ofNat 16 j.length })

/-- R115, R272: a skip over an undecodable word takes DecodeError at that word's address under `skipInvalid = fault`,
the IFx's effects staying, and passes it by the length of its fields under `lengthOnly` (D15). The sense of IFE and
IFN is the spec's own general knowledge (X4; assumption log 7). -/
def Obligations.SkipOverAnUndecodableWord : Prop :=
  ∀ (b a : Operand) (s : State),
    let r := resolveBasic b a s
    ForEachIf b a r.bv r.av fun i c =>
      ¬ c → decode (s.readMem r.st.pc) = none →
        (s.params.skipInvalid = .fault → exec i s =
          .next { r.st with run := .faulted .decodeError r.st.pc (s.readMem r.st.pc) }) ∧
        (s.params.skipInvalid = .lengthOnly → exec i s =
          .next { r.st with pc := r.st.pc + BitVec.ofNat 16 (wordLength (s.readMem r.st.pc)) })

/-! ### Special (46_special.md) -/

/-- R200: JSR pushes the address after itself and jumps to the value its operand had before the push (D18). -/
def Obligations.JsrPushesTheReturnAddress : Prop :=
  ∀ (a : Operand) (s : State),
    let r := resolveSpecial a s
    ∃ t, exec (.jsr a) s = .next t ∧ t.pc = r.2.readLoc r.1 ∧ t.sp = r.2.sp - 1 ∧
      (∀ x, t.readMem x = if x = r.2.sp - 1 then s.pc + BitVec.ofNat 16 (1 + a.extra) else s.readMem x) ∧
      t.regs = s.regs ∧ t.ex = s.ex ∧ t.ia = s.ia ∧ t.run = s.run ∧ t.params = s.params

/-- R201: `SET PC, POP` after a JSR returns to the instruction after it and gives SP back as the JSR's own operand left it,
which is its value before the JSR unless that operand is a POP (or the ill-formed PUSH). -/
def Obligations.ReturnUndoesTheCall : Prop :=
  ∀ (a : Operand) (s t : State), exec (.jsr a) s = .next t →
    ∃ u, exec (.set .pc .pop) t = .next u ∧ u.pc = s.pc + BitVec.ofNat 16 (1 + a.extra) ∧
      u.sp = (resolveSpecial a s).2.sp ∧ (a ≠ .pop → a ≠ .push → u.sp = s.sp) ∧
      u.regs = s.regs ∧ u.ex = s.ex ∧ u.mem = t.mem

/-- R202, R203, R204: IAG writes IA to its operand, IAS sets IA, nothing else changes, an IAG to a register gives back
what IAS set, and no instruction but IAS changes IA (D23, D42; assumption log 20). -/
def Obligations.IagReadsWhatIasWrote : Prop :=
  (∀ (a : Operand) (s : State), ∃ t, exec (.iag a) s = .next t ∧
    StoredPlain (resolveSpecial a s).1 s.ia (resolveSpecial a s).2 t) ∧
  (∀ (a : Operand) (s : State), ∃ t, exec (.ias a) s = .next t ∧
    t = { (resolveSpecial a s).2 with ia := (resolveSpecial a s).2.readLoc (resolveSpecial a s).1 }) ∧
  (∀ (a : Operand) (q : Reg) (s t u : State), exec (.ias a) s = .next t → exec (.iag (.reg q)) t = .next u →
    u.regs.get q = (resolveSpecial a s).2.readLoc (resolveSpecial a s).1) ∧
  (∀ (i : Instr) (s t : State), exec i s = .next t → (∀ a, i ≠ .ias a) → t.ia = s.ia)

/-- R205 to R212 under `stubPolicy = nop`, the source's decoded no-ops: a stub evaluates its operand and changes nothing
but PC, and SP by a POP (D17, D48). -/
def Obligations.StubsAreNopsUnderNop : Prop :=
  ∀ (a : Operand) (s : State), s.params.stubPolicy = .nop →
    ForEachStub a fun i _ => ∃ t, exec i s = .next t ∧ SameButPcSp s t ∧
      t.pc = s.pc + BitVec.ofNat 16 (1 + a.extra) ∧
      t.sp = if a = .pop then s.sp + 1 else if a = .push then s.sp - 1 else s.sp

/-- R206, R272, R274 under `stubPolicy = refuse`: the machine is Faulted with reason Stub, pc0 and the opcode number,
and the operand's effects stay (D17, D48). The opcode numbers are the spec's own general knowledge (D2; assumption log
7). -/
def Obligations.StubsFaultUnderRefuse : Prop :=
  ∀ (a : Operand) (s : State), s.params.stubPolicy = .refuse →
    ForEachStub a fun i opcode =>
      exec i s = .next { (resolveSpecial a s).2 with run := .faulted .stub s.pc opcode }

/-! ### The tick (41_cycle.md, 60_exceptions.md) -/

/-- R111, R117: where the word at PC decodes, a tick is that instruction's meaning and then the termination rule. -/
def Obligations.StepRunsTheDecodedInstruction : Prop :=
  ∀ (s : State) (i : Instr), s.run = .running → decode (s.readMem s.pc) = some i →
    ∃ t, exec i s = .next t ∧ step s = .next
      (if t.run = .running ∧ s.params.haltDetect = true ∧ t.pc = s.pc then { t with run := .finished } else t)

/-- R118, R272, R274: a tick at an undecodable word records DecodeError, PC and the word, and changes nothing else (D20). -/
def Obligations.FetchOfAnUndecodableWordFaults : Prop :=
  ∀ s : State, s.run = .running → decode (s.readMem s.pc) = none →
    step s = .next { s with run := .faulted .decodeError s.pc (s.readMem s.pc) }

/-- R110, R277, R285: Finished and Faulted last, tick after tick, with every register and word unchanged; only a load leaves
them (D20, D46). -/
def Obligations.StoppedMachineNeverChanges : Prop :=
  ∀ (s : State) (n : Nat), s.run ≠ .running →
    Sys2Proof.core.run n s = .next s ∧
    ∀ (ir : InitRegs) (im : Memory) (prog : List Word), prog.length ≤ 65536 →
      ∃ t, State.load ir im prog s = .next t ∧ t.run = .running

/-- R125, R273: every tick of every state has a next state; no operand, no address and no divisor stops the model. -/
def Obligations.EveryTickHasANextState : Prop :=
  (∀ s : State, ∃ t, step s = .next t) ∧ (∀ (i : Instr) (s : State), ∃ t, exec i s = .next t)

/-- R117, R119, R286: `SET PC, h` at address h ends the run in one tick with nothing else changed, and with
`haltDetect` off it runs on (D21). The opcode numbers are the spec's own general knowledge (D2; assumption log 7). -/
def Obligations.JumpToItselfFinishes : Prop :=
  ∀ s : State, s.run = .running → s.readMem s.pc = 0x7F81 → s.readMem (s.pc + 1) = s.pc →
    step s = .next { s with run := if s.params.haltDetect = true then .finished else .running }

/-- R21, R24, R28, R31, R101, R122, R204 read over all 36 instructions: a register, memory word, SP, EX or IA differs
after an instruction only where the spec lets that instruction write it; PC is past the instruction's words unless it
is the destination, JSR jumps, or an IFx also passes the instruction after it; the parameters never differ. -/
def Obligations.ExecChangesOnlyItsTargets : Prop :=
  ∀ (i : Instr) (s t : State), exec i s = .next t →
    (∀ q, t.regs.get q ≠ s.regs.get q → storeTarget i s = some (.reg q) ∨ movesIJ i ∧ (q = .i ∨ q = .j)) ∧
    (∀ x, t.readMem x ≠ s.readMem x → storeTarget i s = some (.mem x)) ∧
    (t.ex ≠ s.ex → storeTarget i s = some .ex ∨ writesEx i s) ∧
    (t.sp ≠ s.sp → storeTarget i s = some .sp ∨ (∃ a, i = .jsr a) ∨
      i.operandB = some .push ∨ i.operandB = some .pop ∨ i.operandA = .pop ∨ i.operandA = .push) ∧
    (t.pc ≠ s.pc + BitVec.ofNat 16 i.length → storeTarget i s = some .pc ∨ (∃ a, i = .jsr a) ∨
      isConditional i ∧ t.pc = s.pc + BitVec.ofNat 16 i.length +
        BitVec.ofNat 16 (wordLength (s.readMem (s.pc + BitVec.ofNat 16 i.length)))) ∧
    (t.ia ≠ s.ia → ∃ a, i = .ias a) ∧
    (t.run ≠ s.run → ∃ reason pc w, t.run = .faulted reason pc w) ∧
    t.params = s.params

/-- R272: under the settings of the original source, DecodeError is the only fault a tick can raise, and the recorded
pair names one memory cell that holds the undecodable word (D20). The IFx are named by their opcode numbers, general
knowledge of the spec (D2; assumption log 7). -/
def Obligations.SourceSettingsFaultOnlyOnUndecodableWords : Prop :=
  ∀ (s t : State) (reason : FaultReason) (pc word : Word), sourceSettings s.params → s.run = .running →
    step s = .next t → t.run = .faulted reason pc word →
      reason = .decodeError ∧ t.readMem pc = word ∧ decode word = none ∧
      (pc = s.pc ∧ t = { s with run := .faulted reason pc word } ∨
        ∃ i b, decode (s.readMem s.pc) = some i ∧ i.operandB = some b ∧
          0x10 ≤ i.opcode.toNat ∧ i.opcode.toNat ≤ 0x17 ∧ pc = (resolveBasic b i.operandA s).st.pc)

/-- The invariant of every run: from every state that has it, a tick and any host writes between ticks to a machine
that is not Faulted give a state that has it. The recorded fields are the spec's own decision (D20; assumption log
20). The opcode numbers it names are general knowledge of the spec (D2; assumption log 7). -/
def Obligations.EveryTickKeepsTheInvariant : Prop :=
  (∀ s t : State, Inv s → step s = .next t → Inv t) ∧
  (∀ (s : State) (ws : List (Word × Word)), Inv s → (∀ reason pc w, s.run ≠ .faulted reason pc w) →
    Inv (s.hostWrites ws))

/-- The invariant holds at reset. -/
def Obligations.InvariantHoldsAtReset : Prop := Inv State.reset

/-- The invariant holds after every accepted load over a canonical initial memory, from any state. -/
def Obligations.LoadEstablishesTheInvariant : Prop :=
  ∀ (s t : State) (ir : InitRegs) (im : Memory) (prog : List Word), Memory.wf im = true →
    State.load ir im prog s = .next t → Inv t

/-! ### Load and the host (70_reset_and_hazards.md, 20_memory.md) -/

/-- R25: PC is 0 and the machine Running after a program load, from any state. -/
def Obligations.LoadStartsRunningAtZero : Prop :=
  ∀ (s t : State) (ir : InitRegs) (im : Memory) (prog : List Word),
    State.load ir im prog s = .next t → t.pc = 0 ∧ t.run = .running

/-- R290, R291: load replaces the whole state: the program at 0, `initMem` elsewhere, the registers from `initRegs`, SP
0xFFFF; a program of more than 65,536 words is refused (D5, D6, D7, D44, D45). -/
def Obligations.LoadReplacesTheWholeState : Prop :=
  ∀ (s : State) (ir : InitRegs) (im : Memory) (prog : List Word),
    (prog.length ≤ 65536 → ∃ t, State.load ir im prog s = .next t ∧
      t.regs = ir.gpr ∧ t.pc = 0 ∧ t.sp = 0xFFFF ∧ t.ex = ir.ex ∧ t.ia = ir.ia ∧ t.run = .running ∧
      (∀ x : Word, t.readMem x = if h : x.toNat < prog.length then prog[x.toNat] else Memory.read im x)) ∧
    (65536 < prog.length → State.load ir im prog s = .refused (.programTooLong prog.length))

/-- R49: the host writes memory words and nothing else; the last write to an index is what it reads (D8, D43). -/
def Obligations.HostWritesTouchOnlyMemory : Prop :=
  ∀ (s : State) (ws : List (Word × Word)) (x v : Word),
    s.hostWrites ws = { s with mem := (s.hostWrites ws).mem } ∧
    ((∀ p ∈ ws, p.1 ≠ x) → (s.hostWrites ws).readMem x = s.readMem x) ∧
    (s.hostWrites (ws ++ [(x, v)])).readMem x = v ∧
    (Memory.wf s.mem = true → Memory.wf (s.hostWrites ws).mem = true)

/-! ### The assembler (47_assembler.md) -/

/-- R230, R232, R233: a parsed operand is one its position can encode, an inline literal only in A, and it carries an
extra word exactly where the decoder's mode takes one (D30). The grammar's details are the spec's own decisions and
the model's (assumption logs 11 and 20). -/
def Obligations.AsmOperandsMatchTheirFields : Prop :=
  ∀ (t : Text) (o : AsmOperand),
    (parseOperand .b t = .ok o → o.mode.wfB = true ∧ o.extra.toList.length = o.mode.extra) ∧
    (parseOperand .a t = .ok o → o.mode.wfA = true ∧ o.extra.toList.length = o.mode.extra)

/-- R232: the words counted for an instruction in pass 1 are the decoder's length of the word pass 2 emits for it, and what a
statement emits has the counted length, whatever the labels' values. -/
def Obligations.AsmLengthsMirrorTheDecoder : Prop :=
  (∀ (t : Text) (i : Instr) (xs : List AsmExtra), parseStatement t = .ok (.instr i xs) →
    i.wf = true ∧ (AsmStmt.instr i xs).length = wordLength (encode i) ∧ decode (encode i) = some i) ∧
  (∀ (st : AsmStmt) (symbols : Symbols) (ws : List Word), st.emit symbols = some ws → ws.length = st.length)

/-- R241: when assembly succeeds, each statement's words stand at the offset pass 1 gave it, and each instruction's first word
decodes to that instruction. -/
def Obligations.AsmOutputDecodesToItsStatements : Prop :=
  ∀ (t : Text) (ws : List Word), assembleText t = .ok ws →
    let p := pass1 1 0 [] (sourceLines t)
    ∀ (pre post : List (Nat × AsmStmt)) (n : Nat) (st : AsmStmt), p.stmts = pre ++ (n, st) :: post →
      ∃ us, st.emit p.symbols = some us ∧
        (ws.drop (pre.map fun x => x.2.length).sum).take st.length = us ∧
        ∀ i xs, st = .instr i xs → us.head?.bind decode = some i

/-- R235, R291: a program the assembler accepts fits memory, so a load accepts it (D7). -/
def Obligations.AsmOutputCanBeLoaded : Prop :=
  ∀ (t : Text) (ws : List Word), assembleText t = .ok ws →
    ws.length ≤ 65536 ∧
    ∀ (ir : InitRegs) (im : Memory) (s : State), ∃ u, State.load ir im ws s = .next u

/-- R225: a second definition of a label is DuplicateLabel and leaves the table alone, and the first definition stands to the
end of pass 1. -/
def Obligations.FirstLabelDefinitionStands : Prop :=
  (∀ (symbols : Symbols) (off v : Nat) (line name rest : Text),
    stripLine line = ':' :: rest → firstToken rest = name → validLabel name = true →
    findName name symbols = some v →
      parseLine symbols off line = ⟨symbols, .error .duplicateLabel⟩) ∧
  (∀ (lines : List Text) (n off v : Nat) (symbols : Symbols) (name : Text),
    findName name symbols = some v → findName name (pass1 n off symbols lines).symbols = some v)

/-- R223, R224, R225, R226, R234, R239: pass 1 never stops at an error. Every line that has an error at the symbol table and
the offset pass 1 reaches it with is reported with its own number and kind, and every diagnostic is such a line's, or
ProgramTooLong at a line without one; no line is reported twice. A line has an error where its statement does not parse,
with or without a new label before it, and where its label is bad or a duplicate; a second label on a line is BadOperand,
the model's choice (assumption log 13). -/
def Obligations.EveryErroneousLineIsReportedOnce : Prop :=
  (∀ (pre post : List Text) (line : Text) (n off : Nat) (symbols : Symbols) (e : AsmError),
    let p := pass1 n off symbols pre
    (parseLine p.symbols (off + (p.stmts.map fun x => x.2.length).sum) line).outcome = .error e →
      (⟨n + pre.length, e⟩ : Diagnostic) ∈ (pass1 n off symbols (pre ++ line :: post)).diagnostics) ∧
  (∀ (lines : List Text) (n off : Nat) (symbols : Symbols) (d : Diagnostic),
    d ∈ (pass1 n off symbols lines).diagnostics →
      ∃ pre line post, lines = pre ++ line :: post ∧ d.line = n + pre.length ∧
        let p := pass1 n off symbols pre
        let r := parseLine p.symbols (off + (p.stmts.map fun x => x.2.length).sum) line
        r.outcome = .error d.kind ∨ d.kind = .programTooLong ∧ ∃ st, r.outcome = .ok (some st)) ∧
  (∀ (lines : List Text) (n off : Nat) (symbols : Symbols),
    ((pass1 n off symbols lines).diagnostics.map Diagnostic.line).Pairwise (· < ·) ∧
    ∀ d ∈ (pass1 n off symbols lines).diagnostics, n ≤ d.line ∧ d.line < n + lines.length) ∧
  (∀ (symbols : Symbols) (off : Nat) (line t rest : Text) (e : AsmError), stripLine line = t →
    (t ≠ [] → t.head? ≠ some ':' → parseStatement t = .error e →
      (parseLine symbols off line).outcome = .error e) ∧
    (t = ':' :: rest → validLabel (firstToken rest) = false →
      (parseLine symbols off line).outcome = .error .badLabel) ∧
    (t = ':' :: rest → validLabel (firstToken rest) = true → (findName (firstToken rest) symbols).isSome = true →
      (parseLine symbols off line).outcome = .error .duplicateLabel) ∧
    (t = ':' :: rest → validLabel (firstToken rest) = true → findName (firstToken rest) symbols = none →
      (afterToken rest ≠ [] → (afterToken rest).head? ≠ some ':' → parseStatement (afterToken rest) = .error e →
        (parseLine symbols off line).outcome = .error e) ∧
      ((afterToken rest).head? = some ':' → (parseLine symbols off line).outcome = .error .badOperand)))

/-- R237, R238: a reference to a label that is defined nowhere makes assembly fail, and any diagnostic of pass 1 does.
The order of the list is D37 (assumption log 12). -/
def Obligations.AsmFailsOnAnyDiagnostic : Prop :=
  ∀ t : Text,
    let p := pass1 1 0 [] (sourceLines t)
    (∀ n i xs name offset, (n, AsmStmt.instr i xs) ∈ p.stmts → AsmExtra.label name offset ∈ xs →
      findName name p.symbols = none → ∃ ds d, assembleText t = .err (ds ++ [d]) ∧ d.kind = .undefinedLabel ∧
        ds = p.diagnostics) ∧
    (p.diagnostics ≠ [] → ∃ ds, assembleText t = .err ds ∧ p.diagnostics <+: ds)
end

