-- ==== Sys2Proof/Laws/Assembler.lean ====
section
/-! SUPPORT. What one line does in pass 1, and what a mode with brackets can be. -/

namespace Sys2Proof.Machine

/-- Everything a line can do in pass 1: an error, nothing, or a statement, which may cross the limit. -/
theorem pass1_cons (n off : Nat) (symbols : Symbols) (line : Text) (lines : List Text) :
    (∃ e, (parseLine symbols off line).outcome = .error e ∧
      pass1 n off symbols (line :: lines) =
        { pass1 (n + 1) off (parseLine symbols off line).symbols lines with
          diagnostics := ⟨n, e⟩ :: (pass1 (n + 1) off (parseLine symbols off line).symbols lines).diagnostics }) ∨
    ((parseLine symbols off line).outcome = .ok none ∧
      pass1 n off symbols (line :: lines) = pass1 (n + 1) off (parseLine symbols off line).symbols lines) ∨
    (∃ st, (parseLine symbols off line).outcome = .ok (some st) ∧
      pass1 n off symbols (line :: lines) =
        { symbols := (pass1 (n + 1) (off + st.length) (parseLine symbols off line).symbols lines).symbols
          diagnostics :=
            (if off ≤ maxProgram ∧ maxProgram < off + st.length then [⟨n, .programTooLong⟩] else []) ++
              (pass1 (n + 1) (off + st.length) (parseLine symbols off line).symbols lines).diagnostics
          stmts := (n, st) :: (pass1 (n + 1) (off + st.length) (parseLine symbols off line).symbols lines).stmts }) := by
  rw [pass1]
  cases h : (parseLine symbols off line).outcome with
  | error e => exact .inl ⟨e, rfl, rfl⟩
  | ok o =>
    cases o with
    | none => exact .inr (.inl ⟨rfl, rfl⟩)
    | some st =>
      refine .inr (.inr ⟨st, rfl, ?_⟩)
      simp only
      split <;> rfl

/-- A bracket sum is a mode both positions have, with one extra word. -/
theorem sumOperand_mode {x y : Token} {o : AsmOperand} (h : sumOperand x y = .ok o) :
    o.mode.wfB = true ∧ o.mode.wfA = true ∧ o.extra.toList.length = o.mode.extra := by
  cases x <;> cases y <;> first
    | (injection h with h; subst h; exact ⟨rfl, rfl, rfl⟩)
    | cases h

/-- A dereference is a mode both positions have, with the extra word it takes. -/
theorem derefOperand_mode {x : Token} {o : AsmOperand} (h : derefOperand x = .ok o) :
    o.mode.wfB = true ∧ o.mode.wfA = true ∧ o.extra.toList.length = o.mode.extra := by
  cases x <;> first
    | (injection h with h; subst h; exact ⟨rfl, rfl, rfl⟩)
    | cases h

theorem bracketOperand_mode {t : Text} {o : AsmOperand} (h : bracketOperand t = .ok o) :
    o.mode.wfB = true ∧ o.mode.wfA = true ∧ o.extra.toList.length = o.mode.extra := by
  unfold bracketOperand at h
  split at h
  · exact derefOperand_mode h
  · exact sumOperand_mode h
  · cases h

end Sys2Proof.Machine
end

