-- ==== Sys2Proof/Laws/Encoding.lean ====
section
/-! SUPPORT. The small lemmas of the encoding: the fields of a packed word, and operand fields against operand modes. -/

namespace Sys2Proof

/-! ### The fields of a packed word -/

@[simp] theorem opField_packBasic (op b : BitVec 5) (a : BitVec 6) : opField (packBasic op b a) = op := by
  ext i hi
  simp only [opField, packBasic, BitVec.getElem_extractLsb', BitVec.getLsbD_or, BitVec.getLsbD_shiftLeft,
    BitVec.getLsbD_setWidth]
  have h1 : i < 16 := by omega
  have h2 : i < 10 := by omega
  simp [h1, h2, hi]

@[simp] theorem bField_packBasic (op b : BitVec 5) (a : BitVec 6) : bField (packBasic op b a) = b := by
  ext i hi
  simp only [bField, packBasic, BitVec.getElem_extractLsb', BitVec.getLsbD_or, BitVec.getLsbD_shiftLeft,
    BitVec.getLsbD_setWidth]
  have h1 : 5 + i < 16 := by omega
  have h2 : 5 + i < 10 := by omega
  have h4 : i < 16 := by omega
  simp [h1, h2, h4, BitVec.getLsbD_eq_getElem hi]

@[simp] theorem aField_packBasic (op b : BitVec 5) (a : BitVec 6) : aField (packBasic op b a) = a := by
  ext i hi
  simp only [aField, packBasic, BitVec.getElem_extractLsb', BitVec.getLsbD_or, BitVec.getLsbD_shiftLeft,
    BitVec.getLsbD_setWidth]
  have h1 : 10 + i < 16 := by omega
  have h3 : op.getLsbD (10 + i) = false := BitVec.getLsbD_of_ge _ _ (by omega)
  have h5 : b.getLsbD (10 + i - 5) = false := BitVec.getLsbD_of_ge _ _ (by omega)
  have h4 : i < 16 := by omega
  simp [h1, h3, h4, h5, BitVec.getLsbD_eq_getElem hi]

theorem packSpecial_eq (op : BitVec 5) (a : BitVec 6) : packSpecial op a = packBasic 0 op a := by
  simp [packSpecial, packBasic]

@[simp] theorem opField_packSpecial (op : BitVec 5) (a : BitVec 6) : opField (packSpecial op a) = 0 := by
  rw [packSpecial_eq, opField_packBasic]

@[simp] theorem bField_packSpecial (op : BitVec 5) (a : BitVec 6) : bField (packSpecial op a) = op := by
  rw [packSpecial_eq, bField_packBasic]

@[simp] theorem aField_packSpecial (op : BitVec 5) (a : BitVec 6) : aField (packSpecial op a) = a := by
  rw [packSpecial_eq, aField_packBasic]

/-- A word is its three fields. -/
theorem packBasic_fields (w : Word) : packBasic (opField w) (bField w) (aField w) = w := by
  ext i hi
  simp only [opField, bField, aField, packBasic, BitVec.getElem_or, BitVec.getElem_shiftLeft, BitVec.getElem_setWidth,
    BitVec.getLsbD_extractLsb']
  by_cases h5 : i < 5
  · have h10 : i < 10 := by omega
    simp [h5, h10, BitVec.getLsbD_eq_getElem hi]
  · by_cases h10 : i < 10
    · have h1 : i - 5 < 5 := by omega
      have h2 : 5 + (i - 5) = i := by omega
      simp [h5, h10, h1, h2, BitVec.getLsbD_eq_getElem hi]
    · have h1 : ¬ i - 5 < 5 := by omega
      have h2 : 10 + (i - 10) = i := by omega
      have h3 : i - 10 < 6 := by omega
      simp [h5, h10, h1, h2, h3, BitVec.getLsbD_eq_getElem hi]

theorem opField_toNat (w : Word) : (opField w).toNat = w.toNat % 32 := by simp [opField, BitVec.extractLsb'_toNat]

theorem bField_toNat (w : Word) : (bField w).toNat = w.toNat / 32 % 32 := by
  simp [bField, BitVec.extractLsb'_toNat, Nat.shiftRight_eq_div_pow]

theorem aField_toNat (w : Word) : (aField w).toNat = w.toNat / 1024 := by
  simp [aField, BitVec.extractLsb'_toNat, Nat.shiftRight_eq_div_pow]
  have := w.isLt
  omega

/-- Everything a decoded instruction says about its word: its operands are the decoded fields, its opcode number is a field,
and bits 4:0 tell which. -/
theorem decode_cases {w : Word} {i : Instr} (h : decode w = some i) :
    (opField w = 0 ∧ i.operandB = none ∧ i.opcode = bField w ∧ i.operandA = decodeA (aField w)) ∨
    (opField w ≠ 0 ∧ i.operandB = some (decodeB (bField w)) ∧ i.opcode = opField w ∧
      i.operandA = decodeA (aField w)) := by
  unfold decode at h
  split at h
  · refine .inl ⟨‹_›, ?_⟩
    have hn : bField w = BitVec.ofNat 5 (bField w).toNat := by simp
    unfold decodeSpecial at h
    split at h <;> simp only [Option.some.injEq, reduceCtorEq] at h <;> subst h <;>
      (rename_i heq; rw [heq] at hn; exact ⟨rfl, hn.symm, rfl⟩)
  · refine .inr ⟨‹_›, ?_⟩
    have hn : opField w = BitVec.ofNat 5 (opField w).toNat := by simp
    unfold decodeBasic at h
    split at h <;> simp only [Option.some.injEq, reduceCtorEq] at h <;> subst h <;>
      (rename_i heq; rw [heq] at hn; exact ⟨rfl, hn.symm, rfl⟩)

/-! ### Operand fields and operand modes -/

theorem Reg.ofIndex_index (r : Reg) : Reg.ofIndex r.index = r := by cases r <;> rfl

theorem encodeB_decodeB : ∀ f : BitVec 5, encodeB (decodeB f) = f := by decide

theorem encodeA_decodeA : ∀ f : BitVec 6, encodeA (decodeA f) = f := by decide

theorem wfB_decodeB : ∀ f : BitVec 5, (decodeB f).wfB = true := by decide

theorem wfA_decodeA : ∀ f : BitVec 6, (decodeA f).wfA = true := by decide

theorem extra_decodeB : ∀ f : BitVec 5, (decodeB f).extra = fieldExtra f.toNat := by decide

theorem extra_decodeA : ∀ f : BitVec 6, (decodeA f).extra = fieldExtra f.toNat := by decide

/-- The values an inline literal of a well-formed operand A may have. -/
theorem inlineLit_cases {v : Word} (h : (Operand.inlineLit v).wfA = true) : ∃ f : BitVec 6, decodeA f = .inlineLit v := by
  have key : ∀ n : Fin 31, decodeA (BitVec.ofNat 6 (n.val + 0x21)) = .inlineLit (BitVec.ofNat 16 n.val) := by decide
  simp only [Operand.wfA, Bool.or_eq_true, beq_iff_eq, decide_eq_true_eq] at h
  rcases h with h | h
  · exact ⟨0x20, by rw [h]; decide⟩
  · refine ⟨_, (key ⟨v.toNat, by omega⟩).trans ?_⟩
    simp

theorem decodeB_encodeB {o : Operand} (h : o.wfB = true) : decodeB (encodeB o) = o := by
  cases o with
  | reg r | ind r | indNext r => cases r <;> decide
  | pop | inlineLit v => cases h
  | push | peek | pick | sp | pc | ex | nextInd | nextLit => decide

theorem decodeA_encodeA {o : Operand} (h : o.wfA = true) : decodeA (encodeA o) = o := by
  cases o with
  | reg r | ind r | indNext r => cases r <;> decide
  | push => cases h
  | inlineLit v =>
    obtain ⟨f, hf⟩ := inlineLit_cases h
    rw [← hf, encodeA_decodeA]
  | pop | peek | pick | sp | pc | ex | nextInd | nextLit => decide

theorem fieldExtra_encodeB {o : Operand} (h : o.wfB = true) : fieldExtra (encodeB o).toNat = o.extra := by
  rw [← extra_decodeB, decodeB_encodeB h]

theorem fieldExtra_encodeA {o : Operand} (h : o.wfA = true) : fieldExtra (encodeA o).toNat = o.extra := by
  rw [← extra_decodeA, decodeA_encodeA h]

/-! ### Lengths -/

theorem wordLength_packBasic {op b : BitVec 5} (a : BitVec 6) (h : op ≠ 0) :
    wordLength (packBasic op b a) = 1 + fieldExtra a.toNat + fieldExtra b.toNat := by
  unfold wordLength
  rw [aField_packBasic, opField_packBasic, bField_packBasic, if_pos h]

theorem wordLength_packSpecial (op : BitVec 5) (a : BitVec 6) :
    wordLength (packSpecial op a) = 1 + fieldExtra a.toNat := by
  unfold wordLength
  rw [aField_packSpecial, opField_packSpecial, if_neg (not_not.2 rfl), Nat.add_zero]

/-- The length of a basic instruction's word, for any constructor. -/
theorem wordLength_encode_basic {i : Instr} {b : Operand} (hb : i.operandB = some b) (hop : i.opcode ≠ 0)
    (h : i.wf = true) : wordLength (encode i) = i.length := by
  simp only [Instr.wf, hb, Option.all_some, Bool.and_eq_true] at h
  have he : encode i = packBasic i.opcode (encodeB b) (encodeA i.operandA) := by unfold encode; rw [hb]
  rw [he, wordLength_packBasic _ hop, fieldExtra_encodeA h.1, fieldExtra_encodeB h.2]
  simp [Instr.length, hb]

/-- The length of a special instruction's word, for any constructor. -/
theorem wordLength_encode_special {i : Instr} (hb : i.operandB = none) (h : i.wf = true) :
    wordLength (encode i) = i.length := by
  simp only [Instr.wf, hb, Option.all_none, Bool.and_true] at h
  have he : encode i = packSpecial i.opcode (encodeA i.operandA) := by unfold encode; rw [hb]
  rw [he, wordLength_packSpecial, fieldExtra_encodeA h]
  simp [Instr.length, hb]

end Sys2Proof
end

