-- ==== Sys2Proof/Laws/State.lean ====
section
/-! SUPPORT. What each named update of State does to each field, so that no later proof unfolds a record update. -/

namespace Sys2Proof.Machine

/-! ### Registers -/

@[simp] theorem Regs.get_set_self (g : Regs) (r : Reg) (v : Word) : (g.set r v).get r = v := by
  cases r <;> rfl

@[simp] theorem Regs.get_set_of_ne (g : Regs) {r q : Reg} (v : Word) (h : r ≠ q) : (g.set r v).get q = g.get q := by
  cases r <;> cases q <;> first | rfl | exact absurd rfl h

theorem Regs.get_set (g : Regs) (r q : Reg) (v : Word) : (g.set r v).get q = if r = q then v else g.get q := by
  by_cases h : r = q
  · subst h; simp
  · simp [h]

theorem Regs.ext_get {g g' : Regs} (h : ∀ q, g.get q = g'.get q) : g = g' := by
  cases g; cases g'
  have ha := h .a; have hb := h .b; have hc := h .c; have hx := h .x
  have hy := h .y; have hz := h .z; have hi := h .i; have hj := h .j
  simp only [Regs.get] at ha hb hc hx hy hz hi hj
  subst ha hb hc hx hy hz hi hj; rfl

/-! ### One lemma per field per update -/

@[simp] theorem State.setReg_regs (s : State) (r : Reg) (v : Word) : (s.setReg r v).regs = s.regs.set r v := rfl
@[simp] theorem State.setReg_pc (s : State) (r : Reg) (v : Word) : (s.setReg r v).pc = s.pc := rfl
@[simp] theorem State.setReg_sp (s : State) (r : Reg) (v : Word) : (s.setReg r v).sp = s.sp := rfl
@[simp] theorem State.setReg_ex (s : State) (r : Reg) (v : Word) : (s.setReg r v).ex = s.ex := rfl
@[simp] theorem State.setReg_ia (s : State) (r : Reg) (v : Word) : (s.setReg r v).ia = s.ia := rfl
@[simp] theorem State.setReg_mem (s : State) (r : Reg) (v : Word) : (s.setReg r v).mem = s.mem := rfl
@[simp] theorem State.setReg_run (s : State) (r : Reg) (v : Word) : (s.setReg r v).run = s.run := rfl
@[simp] theorem State.setReg_params (s : State) (r : Reg) (v : Word) : (s.setReg r v).params = s.params := rfl

@[simp] theorem State.writeMem_regs (s : State) (addr v : Word) : (s.writeMem addr v).regs = s.regs := rfl
@[simp] theorem State.writeMem_pc (s : State) (addr v : Word) : (s.writeMem addr v).pc = s.pc := rfl
@[simp] theorem State.writeMem_sp (s : State) (addr v : Word) : (s.writeMem addr v).sp = s.sp := rfl
@[simp] theorem State.writeMem_ex (s : State) (addr v : Word) : (s.writeMem addr v).ex = s.ex := rfl
@[simp] theorem State.writeMem_ia (s : State) (addr v : Word) : (s.writeMem addr v).ia = s.ia := rfl
@[simp] theorem State.writeMem_mem (s : State) (addr v : Word) : (s.writeMem addr v).mem = Memory.write s.mem addr v := rfl
@[simp] theorem State.writeMem_run (s : State) (addr v : Word) : (s.writeMem addr v).run = s.run := rfl
@[simp] theorem State.writeMem_params (s : State) (addr v : Word) : (s.writeMem addr v).params = s.params := rfl

@[simp] theorem State.advancePc_regs (s : State) : (s.advancePc).regs = s.regs := rfl
@[simp] theorem State.advancePc_pc (s : State) : (s.advancePc).pc = s.pc + 1 := rfl
@[simp] theorem State.advancePc_sp (s : State) : (s.advancePc).sp = s.sp := rfl
@[simp] theorem State.advancePc_ex (s : State) : (s.advancePc).ex = s.ex := rfl
@[simp] theorem State.advancePc_ia (s : State) : (s.advancePc).ia = s.ia := rfl
@[simp] theorem State.advancePc_mem (s : State) : (s.advancePc).mem = s.mem := rfl
@[simp] theorem State.advancePc_run (s : State) : (s.advancePc).run = s.run := rfl
@[simp] theorem State.advancePc_params (s : State) : (s.advancePc).params = s.params := rfl

@[simp] theorem State.pushWord_regs (s : State) (v : Word) : (s.pushWord v).regs = s.regs := rfl
@[simp] theorem State.pushWord_pc (s : State) (v : Word) : (s.pushWord v).pc = s.pc := rfl
@[simp] theorem State.pushWord_sp (s : State) (v : Word) : (s.pushWord v).sp = s.sp - 1 := rfl
@[simp] theorem State.pushWord_ex (s : State) (v : Word) : (s.pushWord v).ex = s.ex := rfl
@[simp] theorem State.pushWord_ia (s : State) (v : Word) : (s.pushWord v).ia = s.ia := rfl
@[simp] theorem State.pushWord_mem (s : State) (v : Word) : (s.pushWord v).mem = Memory.write s.mem (s.sp - 1) v := rfl
@[simp] theorem State.pushWord_run (s : State) (v : Word) : (s.pushWord v).run = s.run := rfl
@[simp] theorem State.pushWord_params (s : State) (v : Word) : (s.pushWord v).params = s.params := rfl

@[simp] theorem State.takeFault_regs (s : State) (reason : FaultReason) (pc word : Word) : (s.takeFault reason pc word).regs = s.regs := rfl
@[simp] theorem State.takeFault_pc (s : State) (reason : FaultReason) (pc word : Word) : (s.takeFault reason pc word).pc = s.pc := rfl
@[simp] theorem State.takeFault_sp (s : State) (reason : FaultReason) (pc word : Word) : (s.takeFault reason pc word).sp = s.sp := rfl
@[simp] theorem State.takeFault_ex (s : State) (reason : FaultReason) (pc word : Word) : (s.takeFault reason pc word).ex = s.ex := rfl
@[simp] theorem State.takeFault_ia (s : State) (reason : FaultReason) (pc word : Word) : (s.takeFault reason pc word).ia = s.ia := rfl
@[simp] theorem State.takeFault_mem (s : State) (reason : FaultReason) (pc word : Word) : (s.takeFault reason pc word).mem = s.mem := rfl
@[simp] theorem State.takeFault_run (s : State) (reason : FaultReason) (pc word : Word) : (s.takeFault reason pc word).run = .faulted reason pc word := rfl
@[simp] theorem State.takeFault_params (s : State) (reason : FaultReason) (pc word : Word) : (s.takeFault reason pc word).params = s.params := rfl

@[simp] theorem State.nextWord_fst (s : State) : s.nextWord.1 = s.readMem s.pc := rfl
@[simp] theorem State.nextWord_snd (s : State) : s.nextWord.2 = s.advancePc := rfl

end Sys2Proof.Machine
end

