-- ==== Sys2Proof/Laws/Memory.lean ====
section
/-! SUPPORT. The laws of memory: read after write, every operation keeps the canonical form, and equal canonical memories are
equal lists. -/

namespace Sys2Proof.Machine

/-! ### Read after write, in any list -/

theorem Memory.lookup_insertCell (m : Memory) (n k : Nat) (v : Word) :
    Memory.lookup (Memory.insertCell m n v) k = if n = k then v else Memory.lookup m k := by
  induction m with
  | nil => simp [Memory.insertCell, Memory.lookup]
  | cons c m ih =>
    obtain ⟨j, x⟩ := c
    unfold Memory.insertCell
    split_ifs with h1 h2 <;> simp only [Memory.lookup, ih] <;> split_ifs <;> first | rfl | omega

theorem Memory.lookup_removeCell (m : Memory) (n k : Nat) :
    Memory.lookup (Memory.removeCell m n) k = if n = k then unlistedWord else Memory.lookup m k := by
  induction m with
  | nil => simp [Memory.removeCell, Memory.lookup]
  | cons c m ih =>
    obtain ⟨j, x⟩ := c
    unfold Memory.removeCell
    split_ifs with h1 <;> simp only [Memory.lookup, ih] <;> split_ifs <;> first | rfl | omega

/-- Reading after a write gives the written word at that index and the old word at every other. -/
theorem Memory.read_write (m : Memory) (x y v : Word) :
    Memory.read (Memory.write m x v) y = if x = y then v else Memory.read m y := by
  have hxy : x.toNat = y.toNat ↔ x = y := BitVec.toNat_inj
  unfold Memory.write Memory.read
  split_ifs with hv h h
  · rw [Memory.lookup_removeCell, if_pos (hxy.2 h), hv]
  · rw [Memory.lookup_removeCell, if_neg (mt hxy.1 h)]
  · rw [Memory.lookup_insertCell, if_pos (hxy.2 h)]
  · rw [Memory.lookup_insertCell, if_neg (mt hxy.1 h)]

@[simp] theorem Memory.read_write_self (m : Memory) (x v : Word) : Memory.read (Memory.write m x v) x = v := by
  rw [Memory.read_write, if_pos rfl]

theorem State.readMem_writeMem (s : State) (x y v : Word) :
    (s.writeMem x v).readMem y = if x = y then v else s.readMem y :=
  Memory.read_write s.mem x y v

/-! ### The canonical form -/

/-- The canonical form as a proposition on the list. -/
theorem Memory.wf_iff (m : Memory) :
    Memory.wf m = true ↔ (m.Pairwise fun p q => p.1 < q.1) ∧ ∀ p ∈ m, p.1 < 65536 ∧ p.2 ≠ unlistedWord := by
  simp [Memory.wf]

theorem Memory.mem_insertCell {m : Memory} {n : Nat} {v : Word} {p : Cell} (h : p ∈ Memory.insertCell m n v) :
    p = (n, v) ∨ p ∈ m := by
  induction m with
  | nil => simpa [Memory.insertCell] using h
  | cons c m ih =>
    obtain ⟨j, x⟩ := c
    unfold Memory.insertCell at h
    split_ifs at h
    · simpa using h
    · rcases List.mem_cons.1 h with h | h
      · exact .inl h
      · exact .inr (List.mem_cons_of_mem _ h)
    · rcases List.mem_cons.1 h with h | h
      · exact .inr (h ▸ List.mem_cons_self)
      · exact (ih h).imp id (List.mem_cons_of_mem _)

theorem Memory.pairwise_insertCell {m : Memory} (n : Nat) (v : Word) (h : m.Pairwise fun p q => p.1 < q.1) :
    (Memory.insertCell m n v).Pairwise fun p q => p.1 < q.1 := by
  induction m with
  | nil => simp [Memory.insertCell]
  | cons c m ih =>
    obtain ⟨j, x⟩ := c
    rw [List.pairwise_cons] at h
    unfold Memory.insertCell
    split_ifs with h1 h2
    · refine List.pairwise_cons.2 ⟨fun q hq => ?_, List.pairwise_cons.2 h⟩
      rcases List.mem_cons.1 hq with hq | hq
      · rw [hq]; exact h1
      · exact h1.trans (h.1 q hq)
    · exact List.pairwise_cons.2 ⟨fun q hq => h2 ▸ h.1 q hq, h.2⟩
    · refine List.pairwise_cons.2 ⟨fun q hq => ?_, ih h.2⟩
      rcases Memory.mem_insertCell hq with hq | hq
      · rw [hq]; exact lt_of_le_of_ne (Nat.le_of_not_lt h1) (Ne.symm h2)
      · exact h.1 q hq

theorem Memory.sublist_removeCell (m : Memory) (n : Nat) : (Memory.removeCell m n).Sublist m := by
  induction m with
  | nil => exact .slnil
  | cons c m ih =>
    obtain ⟨j, x⟩ := c
    unfold Memory.removeCell
    split_ifs
    · exact ih.cons _
    · exact ih.cons_cons _

/-- A write keeps the canonical form. -/
theorem Memory.wf_write {m : Memory} (h : Memory.wf m = true) (addr v : Word) : Memory.wf (Memory.write m addr v) = true := by
  rw [Memory.wf_iff] at h ⊢
  unfold Memory.write
  split_ifs with hv
  · have hs := Memory.sublist_removeCell m addr.toNat
    exact ⟨h.1.sublist hs, fun p hp => h.2 p (hs.subset hp)⟩
  · refine ⟨Memory.pairwise_insertCell _ _ h.1, fun p hp => ?_⟩
    rcases Memory.mem_insertCell hp with hp | hp
    · rw [hp]; exact ⟨addr.isLt, hv⟩
    · exact h.2 p hp

/-- The empty list is canonical. -/
theorem Memory.wf_nil : Memory.wf [] = true := rfl

theorem Memory.lookup_of_all_gt {m : Memory} {n : Nat} (h : ∀ p ∈ m, n < p.1) : Memory.lookup m n = unlistedWord := by
  induction m with
  | nil => rfl
  | cons c m ih =>
    obtain ⟨j, x⟩ := c
    have hj : n < j := h (j, x) List.mem_cons_self
    simp only [Memory.lookup, if_neg (Nat.ne_of_gt hj)]
    exact ih fun p hp => h p (List.mem_cons_of_mem _ hp)

/-- Canonical lists that look up alike are the same list. -/
theorem Memory.eq_of_lookup : ∀ {m m' : Memory}, Memory.wf m = true → Memory.wf m' = true →
    (∀ n, Memory.lookup m n = Memory.lookup m' n) → m = m'
  | [], [], _, _, _ => rfl
  | [], (k, x) :: m', _, h', h => by
    have hx := (((Memory.wf_iff _).1 h').2 _ List.mem_cons_self).2
    exact absurd (h k).symm (by simpa [Memory.lookup] using hx)
  | (k, x) :: m, [], h, _, he => by
    have hx := (((Memory.wf_iff _).1 h).2 _ List.mem_cons_self).2
    exact absurd (he k) (by simpa [Memory.lookup] using hx)
  | (k, x) :: m, (k', x') :: m', h, h', he => by
    rw [Memory.wf_iff, List.pairwise_cons] at h h'
    have hx := (h.2 _ List.mem_cons_self).2
    have hx' := (h'.2 _ List.mem_cons_self).2
    have hk : k = k' := by
      rcases Nat.lt_trichotomy k k' with hlt | heq | hgt
      · have := he k
        rw [Memory.lookup_of_all_gt (m := (k', x') :: m') (n := k)] at this
        · simp only [Memory.lookup, if_true] at this; exact absurd this hx
        · intro p hp
          rcases List.mem_cons.1 hp with hp | hp
          · rw [hp]; exact hlt
          · exact hlt.trans (h'.1.1 p hp)
      · exact heq
      · have := he k'
        rw [Memory.lookup_of_all_gt (m := (k, x) :: m) (n := k')] at this
        · simp only [Memory.lookup, if_true] at this; exact absurd this.symm hx'
        · intro p hp
          rcases List.mem_cons.1 hp with hp | hp
          · rw [hp]; exact hgt
          · exact hgt.trans (h.1.1 p hp)
    subst hk
    have hv : x = x' := by simpa [Memory.lookup] using he k
    subst hv
    have hm : m = m' := by
      refine Memory.eq_of_lookup ((Memory.wf_iff _).2 ⟨h.1.2, fun p hp => h.2 p (List.mem_cons_of_mem _ hp)⟩)
        ((Memory.wf_iff _).2 ⟨h'.1.2, fun p hp => h'.2 p (List.mem_cons_of_mem _ hp)⟩) fun n => ?_
      by_cases hn : k = n
      · subst hn; rw [Memory.lookup_of_all_gt h.1.1, Memory.lookup_of_all_gt h'.1.1]
      · simpa [Memory.lookup, hn] using he n
    rw [hm]

/-- Canonical memories in which every one of the 65,536 words reads alike are the same list. -/
theorem Memory.eq_of_read {m m' : Memory} (h : Memory.wf m = true) (h' : Memory.wf m' = true)
    (he : ∀ addr, Memory.read m addr = Memory.read m' addr) : m = m' := by
  refine Memory.eq_of_lookup h h' fun n => ?_
  by_cases hn : n < 65536
  · have := he (BitVec.ofNat 16 n)
    simpa [Memory.read, Nat.mod_eq_of_lt hn] using this
  · have key : ∀ {m : Memory}, Memory.wf m = true → Memory.lookup m n = unlistedWord := by
      intro m hm
      have hlt := ((Memory.wf_iff m).1 hm).2
      clear hm
      induction m with
      | nil => rfl
      | cons c m ih =>
        obtain ⟨j, x⟩ := c
        have hj : j < 65536 := (hlt _ List.mem_cons_self).1
        have hne : ¬ j = n := by omega
        simp only [Memory.lookup, if_neg hne]
        exact ih fun p hp => hlt p (List.mem_cons_of_mem _ hp)
    rw [key h, key h']

/-- Writing what a canonical memory already reads changes nothing. -/
theorem Memory.write_read_self {m : Memory} (h : Memory.wf m = true) (addr : Word) :
    Memory.write m addr (Memory.read m addr) = m := by
  refine Memory.eq_of_read (Memory.wf_write h _ _) h fun x => ?_
  rw [Memory.read_write]
  split_ifs with hx
  · rw [hx]
  · rfl

end Sys2Proof.Machine
end

