-- ==== Sys2Proof/Laws/Operands.lean ====
section
/-! SUPPORT. What operand evaluation, the writes and the shared shapes can do: one lemma for each, cited instead of unfolding. -/

namespace Sys2Proof.Machine

/-! ### Evaluation moves PC and SP, and nothing else -/

@[simp] theorem eval_regs (o : Operand) (s : State) : (eval o s).2.regs = s.regs := by cases o <;> rfl
@[simp] theorem eval_ex (o : Operand) (s : State) : (eval o s).2.ex = s.ex := by cases o <;> rfl
@[simp] theorem eval_ia (o : Operand) (s : State) : (eval o s).2.ia = s.ia := by cases o <;> rfl
@[simp] theorem eval_mem (o : Operand) (s : State) : (eval o s).2.mem = s.mem := by cases o <;> rfl
@[simp] theorem eval_run (o : Operand) (s : State) : (eval o s).2.run = s.run := by cases o <;> rfl
@[simp] theorem eval_params (o : Operand) (s : State) : (eval o s).2.params = s.params := by cases o <;> rfl

@[simp] theorem eval_readMem (o : Operand) (s : State) (x : Word) : (eval o s).2.readMem x = s.readMem x := by
  unfold State.readMem; rw [eval_mem]

@[simp] theorem State.advancePc_readMem (s : State) (x : Word) : s.advancePc.readMem x = s.readMem x := rfl

/-- PC moves by the mode's extra words. -/
theorem eval_pc (o : Operand) (s : State) : (eval o s).2.pc = s.pc + BitVec.ofNat 16 o.extra := by
  cases o <;> simp [eval, Operand.extra]

/-- SP moves only by PUSH and POP. -/
theorem eval_sp (o : Operand) (s : State) :
    (eval o s).2.sp = if o = .push then s.sp - 1 else if o = .pop then s.sp + 1 else s.sp := by
  cases o <;> simp [eval]

section Resolved
variable (b a : Operand) (s : State)

@[simp] theorem resolveBasic_regs : (resolveBasic b a s).st.regs = s.regs := by simp [resolveBasic]
@[simp] theorem resolveBasic_ex : (resolveBasic b a s).st.ex = s.ex := by simp [resolveBasic]
@[simp] theorem resolveBasic_ia : (resolveBasic b a s).st.ia = s.ia := by simp [resolveBasic]
@[simp] theorem resolveBasic_mem : (resolveBasic b a s).st.mem = s.mem := by simp [resolveBasic]
@[simp] theorem resolveBasic_run : (resolveBasic b a s).st.run = s.run := by simp [resolveBasic]
@[simp] theorem resolveBasic_params : (resolveBasic b a s).st.params = s.params := by simp [resolveBasic]
@[simp] theorem resolveBasic_readMem (x : Word) : (resolveBasic b a s).st.readMem x = s.readMem x := by
  simp [resolveBasic]

@[simp] theorem resolveSpecial_regs : (resolveSpecial a s).2.regs = s.regs := by simp [resolveSpecial]
@[simp] theorem resolveSpecial_ex : (resolveSpecial a s).2.ex = s.ex := by simp [resolveSpecial]
@[simp] theorem resolveSpecial_ia : (resolveSpecial a s).2.ia = s.ia := by simp [resolveSpecial]
@[simp] theorem resolveSpecial_mem : (resolveSpecial a s).2.mem = s.mem := by simp [resolveSpecial]
@[simp] theorem resolveSpecial_run : (resolveSpecial a s).2.run = s.run := by simp [resolveSpecial]
@[simp] theorem resolveSpecial_params : (resolveSpecial a s).2.params = s.params := by simp [resolveSpecial]
@[simp] theorem resolveSpecial_readMem (x : Word) : (resolveSpecial a s).2.readMem x = s.readMem x := by
  simp [resolveSpecial]

end Resolved

/-! ### Writing a location -/

theorem State.writeLoc_stored (s : State) (loc : Location) (v : Word) : StoredPlain loc v s (s.writeLoc loc v) := by
  cases loc with
  | reg r =>
    refine ⟨⟨fun q => ?_, ?_, ?_, rfl, fun x => ?_, rfl, rfl⟩, ?_⟩
    · simp [State.writeLoc, Regs.get_set]
    all_goals simp [State.writeLoc, State.readMem]
  | mem addr =>
    refine ⟨⟨fun q => ?_, ?_, ?_, rfl, fun x => ?_, rfl, rfl⟩, ?_⟩
    all_goals simp [State.writeLoc, State.readMem_writeMem]
  | sp | pc | ex | lit w => constructor <;> (try constructor) <;> simp [State.writeLoc, State.readMem]

theorem State.writeWithEx_stored (s : State) (loc : Location) (r : ValueEx) :
    StoredWithEx loc r.value r.ex s (s.writeWithEx loc r) := by
  unfold State.writeWithEx
  cases horder : s.params.exDestOrder with
  | exLast =>
    have h := (s.writeLoc_stored loc r.value).1
    exact ⟨⟨h.regs, h.pc, h.sp, h.ia, h.mem, h.run, h.params⟩, by simp [horder]⟩
  | bLast =>
    obtain ⟨h, hex⟩ := State.writeLoc_stored { s with ex := r.ex } loc r.value
    exact ⟨⟨h.regs, h.pc, h.sp, h.ia, h.mem, h.run, h.params⟩, by simp [hex, horder]⟩

/-- Every write keeps memory canonical. -/
theorem State.wf_writeLoc {s : State} (h : Memory.wf s.mem = true) (loc : Location) (v : Word) :
    Memory.wf (s.writeLoc loc v).mem = true := by
  cases loc with
  | mem addr => exact Memory.wf_write h addr v
  | reg r | sp | pc | ex | lit w => exact h

theorem State.wf_writeWithEx {s : State} (h : Memory.wf s.mem = true) (loc : Location) (r : ValueEx) :
    Memory.wf (s.writeWithEx loc r).mem = true := by
  unfold State.writeWithEx
  split
  · exact State.wf_writeLoc h loc r.value
  · exact State.wf_writeLoc (s := { s with ex := r.ex }) h loc r.value

/-! ### The shared shapes -/

theorem storeResult_next (f : Word → Word → Word) (b a : Operand) (s : State) :
    ∃ t, storeResult f b a s = .next t ∧
      StoredPlain (resolveBasic b a s).b (f (resolveBasic b a s).bv (resolveBasic b a s).av) (resolveBasic b a s).st t :=
  ⟨_, rfl, State.writeLoc_stored _ _ _⟩

theorem storeResultEx_next (f : Word → Word → ValueEx) (b a : Operand) (s : State) :
    ∃ t, storeResultEx f b a s = .next t ∧
      StoredWithEx (resolveBasic b a s).b (f (resolveBasic b a s).bv (resolveBasic b a s).av).value
        (f (resolveBasic b a s).bv (resolveBasic b a s).av).ex (resolveBasic b a s).st t :=
  ⟨_, rfl, State.writeWithEx_stored _ _ _⟩

theorem storeWithCarry_next (f : Int → Word → Word → ValueEx) (b a : Operand) (s : State) :
    ∃ t, storeWithCarry f b a s = .next t ∧
      StoredWithEx (resolveBasic b a s).b
        (f (carryIn s.params s.ex) (resolveBasic b a s).bv (resolveBasic b a s).av).value
        (f (carryIn s.params s.ex) (resolveBasic b a s).bv (resolveBasic b a s).av).ex (resolveBasic b a s).st t := by
  refine ⟨_, rfl, ?_⟩
  rw [resolveBasic_params, resolveBasic_ex]
  exact State.writeWithEx_stored _ _ _

/-- A shift either faults, with the operands' effects alone, or stores. -/
theorem storeShift_cases (opcode : Word) (f : Word → Word → ValueEx) (b a : Operand) (s : State) :
    (s.params.wideShift = .fault ∧ 16 ≤ (resolveBasic b a s).av.toNat ∧
      storeShift opcode f b a s = .next ((resolveBasic b a s).st.takeFault .arithFault s.pc opcode)) ∨
    (¬ (s.params.wideShift = .fault ∧ 16 ≤ (resolveBasic b a s).av.toNat) ∧
      storeShift opcode f b a s = storeResultEx f b a s) := by
  unfold storeShift
  simp only [resolveBasic_params]
  split
  · exact .inl ⟨(‹_ ∧ _›).1, (‹_ ∧ _›).2, rfl⟩
  · exact .inr ⟨‹_›, rfl⟩

/-- A remainder by zero stores 0, and EX 0 under `clear`; any other stores the remainder alone. -/
theorem remainderResult_cases (f : Word → Word → Word) (r : Resolved) :
    (r.av = 0 ∧ r.st.params.modZeroEx = .clear ∧ remainderResult f r = r.st.writeWithEx r.b { value := 0, ex := 0 }) ∨
    (r.av = 0 ∧ r.st.params.modZeroEx = .keep ∧ remainderResult f r = r.st.writeLoc r.b 0) ∨
    (r.av ≠ 0 ∧ remainderResult f r = r.st.writeLoc r.b (f r.bv r.av)) := by
  unfold remainderResult
  by_cases h : r.av = 0
  · cases hm : r.st.params.modZeroEx with
    | clear => exact .inl ⟨h, rfl, by rw [if_pos h]⟩
    | keep => exact .inr (.inl ⟨h, rfl, by rw [if_pos h]⟩)
  · exact .inr (.inr ⟨h, by rw [if_neg h]⟩)

/-- DVI and MDI either fault, with the operands' effects alone, or complete. -/
theorem orDivFault_cases (opcode pc0 : Word) (r : Resolved) (done : State) :
    (r.st.params.signedDivOverflow = .fault ∧ (r.bv = 0x8000 ∧ r.av = 0xFFFF) ∧
      orDivFault opcode pc0 r done = .next (r.st.takeFault .arithFault pc0 opcode)) ∨
    (¬ (r.st.params.signedDivOverflow = .fault ∧ r.bv = 0x8000 ∧ r.av = 0xFFFF) ∧
      orDivFault opcode pc0 r done = .next done) := by
  have h : signedQuotientOverflows r.bv r.av = true ↔ r.bv = 0x8000 ∧ r.av = 0xFFFF := by
    simp [signedQuotientOverflows]
  unfold orDivFault
  rw [← h]
  split
  · exact .inl ⟨(‹_ ∧ _›).1, (‹_ ∧ _›).2, rfl⟩
  · exact .inr ⟨‹_›, rfl⟩

theorem storeAndMove_next (d : Word) (b a : Operand) (s : State) :
    ∃ t, storeAndMove d b a s = .next t ∧
      StoredAndMoved (resolveBasic b a s).b (resolveBasic b a s).av d (resolveBasic b a s).st t := by
  obtain ⟨h, hex⟩ := State.writeLoc_stored (resolveBasic b a s).st (resolveBasic b a s).b (resolveBasic b a s).av
  refine ⟨_, rfl, ⟨fun q => ?_, h.pc, h.sp, hex, h.ia, h.mem, h.run, h.params⟩⟩
  rw [← h.regs q]
  cases q <;> simp [Regs.get]

theorem execStub_cases (opcode : Word) (a : Operand) (s : State) :
    (s.params.stubPolicy = .nop ∧ execStub opcode a s = .next (resolveSpecial a s).2) ∨
    (s.params.stubPolicy = .refuse ∧
      execStub opcode a s = .next ((resolveSpecial a s).2.takeFault .stub s.pc opcode)) := by
  unfold execStub
  simp only [resolveSpecial_params]
  cases s.params.stubPolicy with
  | nop => exact .inl ⟨rfl, rfl⟩
  | refuse => exact .inr ⟨rfl, rfl⟩

/-! ### The skip and the end of a tick -/

/-- Everything a skip can do. -/
theorem State.skipNext_cases (s : State) :
    ((decode s.fetchWord ≠ none ∨ s.params.skipInvalid = .lengthOnly) ∧
      s.skipNext = { s with pc := s.pc + BitVec.ofNat 16 (wordLength s.fetchWord) }) ∨
    (decode s.fetchWord = none ∧ s.params.skipInvalid = .fault ∧
      s.skipNext = s.takeFault .decodeError s.pc s.fetchWord) := by
  unfold State.skipNext
  cases hd : decode s.fetchWord with
  | some j => exact .inl ⟨.inl (by simp), by simp only [hd]⟩
  | none =>
    cases hp : s.params.skipInvalid with
    | fault => exact .inr ⟨rfl, rfl, by simp only [hd]⟩
    | lengthOnly => exact .inl ⟨.inr rfl, by simp only [hd]⟩

/-- Everything the end of a tick can do. -/
theorem State.finishTick_cases (pc0 : Word) (t : State) :
    (t.run = .running ∧ t.params.haltDetect = true ∧ t.pc = pc0 ∧ t.finishTick pc0 = { t with run := .finished }) ∨
    (¬ (t.run = .running ∧ t.params.haltDetect = true ∧ t.pc = pc0) ∧ t.finishTick pc0 = t) := by
  unfold State.finishTick
  cases hr : t.run with
  | running =>
    by_cases h : t.params.haltDetect = true ∧ t.pc = pc0
    · exact .inl ⟨rfl, h.1, h.2, by simp [h]⟩
    · exact .inr ⟨fun hc => h hc.2, by simp [h]⟩
  | finished => exact .inr ⟨(by simp), rfl⟩
  | faulted r p w => exact .inr ⟨(by simp), rfl⟩

end Sys2Proof.Machine
end

