-- ==== Sys2Proof/Laws/PerInstr.lean ====
section
/-! SUPPORT. Statements made per instruction: the word an instruction is encoded as has, by the length formula on its fields,
the instruction's own length (30_encoding.md R64). -/

namespace Sys2Proof

/-- The length formula on the encoded word agrees with the length of the instruction. -/
def Laws.EncodedLength.Statement (i : Instr) : Prop := i.wf = true → wordLength (encode i) = i.length

theorem Laws.EncodedLength.set (b a : Operand) : Laws.EncodedLength.Statement (.set b a) :=
  wordLength_encode_basic rfl (by simp [Instr.opcode])

theorem Laws.EncodedLength.add (b a : Operand) : Laws.EncodedLength.Statement (.add b a) :=
  wordLength_encode_basic rfl (by simp [Instr.opcode])

theorem Laws.EncodedLength.sub (b a : Operand) : Laws.EncodedLength.Statement (.sub b a) :=
  wordLength_encode_basic rfl (by simp [Instr.opcode])

theorem Laws.EncodedLength.mul (b a : Operand) : Laws.EncodedLength.Statement (.mul b a) :=
  wordLength_encode_basic rfl (by simp [Instr.opcode])

theorem Laws.EncodedLength.mli (b a : Operand) : Laws.EncodedLength.Statement (.mli b a) :=
  wordLength_encode_basic rfl (by simp [Instr.opcode])

theorem Laws.EncodedLength.div (b a : Operand) : Laws.EncodedLength.Statement (.div b a) :=
  wordLength_encode_basic rfl (by simp [Instr.opcode])

theorem Laws.EncodedLength.dvi (b a : Operand) : Laws.EncodedLength.Statement (.dvi b a) :=
  wordLength_encode_basic rfl (by simp [Instr.opcode])

theorem Laws.EncodedLength.mod (b a : Operand) : Laws.EncodedLength.Statement (.mod b a) :=
  wordLength_encode_basic rfl (by simp [Instr.opcode])

theorem Laws.EncodedLength.mdi (b a : Operand) : Laws.EncodedLength.Statement (.mdi b a) :=
  wordLength_encode_basic rfl (by simp [Instr.opcode])

theorem Laws.EncodedLength.and (b a : Operand) : Laws.EncodedLength.Statement (.and b a) :=
  wordLength_encode_basic rfl (by simp [Instr.opcode])

theorem Laws.EncodedLength.bor (b a : Operand) : Laws.EncodedLength.Statement (.bor b a) :=
  wordLength_encode_basic rfl (by simp [Instr.opcode])

theorem Laws.EncodedLength.xor (b a : Operand) : Laws.EncodedLength.Statement (.xor b a) :=
  wordLength_encode_basic rfl (by simp [Instr.opcode])

theorem Laws.EncodedLength.shr (b a : Operand) : Laws.EncodedLength.Statement (.shr b a) :=
  wordLength_encode_basic rfl (by simp [Instr.opcode])

theorem Laws.EncodedLength.asr (b a : Operand) : Laws.EncodedLength.Statement (.asr b a) :=
  wordLength_encode_basic rfl (by simp [Instr.opcode])

theorem Laws.EncodedLength.shl (b a : Operand) : Laws.EncodedLength.Statement (.shl b a) :=
  wordLength_encode_basic rfl (by simp [Instr.opcode])

theorem Laws.EncodedLength.ifb (b a : Operand) : Laws.EncodedLength.Statement (.ifb b a) :=
  wordLength_encode_basic rfl (by simp [Instr.opcode])

theorem Laws.EncodedLength.ifc (b a : Operand) : Laws.EncodedLength.Statement (.ifc b a) :=
  wordLength_encode_basic rfl (by simp [Instr.opcode])

theorem Laws.EncodedLength.ife (b a : Operand) : Laws.EncodedLength.Statement (.ife b a) :=
  wordLength_encode_basic rfl (by simp [Instr.opcode])

theorem Laws.EncodedLength.ifn (b a : Operand) : Laws.EncodedLength.Statement (.ifn b a) :=
  wordLength_encode_basic rfl (by simp [Instr.opcode])

theorem Laws.EncodedLength.ifg (b a : Operand) : Laws.EncodedLength.Statement (.ifg b a) :=
  wordLength_encode_basic rfl (by simp [Instr.opcode])

theorem Laws.EncodedLength.ifa (b a : Operand) : Laws.EncodedLength.Statement (.ifa b a) :=
  wordLength_encode_basic rfl (by simp [Instr.opcode])

theorem Laws.EncodedLength.ifl (b a : Operand) : Laws.EncodedLength.Statement (.ifl b a) :=
  wordLength_encode_basic rfl (by simp [Instr.opcode])

theorem Laws.EncodedLength.ifu (b a : Operand) : Laws.EncodedLength.Statement (.ifu b a) :=
  wordLength_encode_basic rfl (by simp [Instr.opcode])

theorem Laws.EncodedLength.adx (b a : Operand) : Laws.EncodedLength.Statement (.adx b a) :=
  wordLength_encode_basic rfl (by simp [Instr.opcode])

theorem Laws.EncodedLength.sbx (b a : Operand) : Laws.EncodedLength.Statement (.sbx b a) :=
  wordLength_encode_basic rfl (by simp [Instr.opcode])

theorem Laws.EncodedLength.sti (b a : Operand) : Laws.EncodedLength.Statement (.sti b a) :=
  wordLength_encode_basic rfl (by simp [Instr.opcode])

theorem Laws.EncodedLength.std (b a : Operand) : Laws.EncodedLength.Statement (.std b a) :=
  wordLength_encode_basic rfl (by simp [Instr.opcode])

theorem Laws.EncodedLength.jsr (a : Operand) : Laws.EncodedLength.Statement (.jsr a) :=
  wordLength_encode_special rfl

theorem Laws.EncodedLength.int (a : Operand) : Laws.EncodedLength.Statement (.int a) :=
  wordLength_encode_special rfl

theorem Laws.EncodedLength.iag (a : Operand) : Laws.EncodedLength.Statement (.iag a) :=
  wordLength_encode_special rfl

theorem Laws.EncodedLength.ias (a : Operand) : Laws.EncodedLength.Statement (.ias a) :=
  wordLength_encode_special rfl

theorem Laws.EncodedLength.rfi (a : Operand) : Laws.EncodedLength.Statement (.rfi a) :=
  wordLength_encode_special rfl

theorem Laws.EncodedLength.iaq (a : Operand) : Laws.EncodedLength.Statement (.iaq a) :=
  wordLength_encode_special rfl

theorem Laws.EncodedLength.hwn (a : Operand) : Laws.EncodedLength.Statement (.hwn a) :=
  wordLength_encode_special rfl

theorem Laws.EncodedLength.hwq (a : Operand) : Laws.EncodedLength.Statement (.hwq a) :=
  wordLength_encode_special rfl

theorem Laws.EncodedLength.hwi (a : Operand) : Laws.EncodedLength.Statement (.hwi a) :=
  wordLength_encode_special rfl

end Sys2Proof
end

