-- ==== Sys2Proof/Tests/Slice0.lean ====
section
/-! SUPPORT. Small tests, each against a vector of 95_test_vectors.md (named in the test) or a word written out from 30_encoding.md,
and a witness for every obligation that has hypotheses. -/

namespace Sys2Proof.Tests

open Sys2Proof Sys2Proof.Machine

/-! ### Helpers -/

/-- The conventions of 95_test_vectors.md: words from address 0, everything else as after load. -/
def boot (ws : List Word) : State := { State.reset with mem := Memory.writeFrom [] 0 ws }

/-- As `boot`, with A, B and EX given. -/
def bootAB (a b ex : Word) (ws : List Word) : State :=
  { boot ws with regs := { a := a, b := b, c := 0, x := 0, y := 0, z := 0, i := 0, j := 0 }, ex := ex }

/-- As `boot`, with B, I and J given. -/
def bootIJ (b i j : Word) (ws : List Word) : State :=
  { boot ws with regs := { a := 0, b := b, c := 0, x := 0, y := 0, z := 0, i := i, j := j } }

/-- The same state under `stubPolicy = nop`. -/
def withNop (s : State) : State := { s with params := { s.params with stubPolicy := .nop } }

/-- The state after one tick. -/
def tick (s : State) : State :=
  match step s with
  | .next t => t
  | .fault _ => s
  | .refused _ => s

/-- A, EX, PC and the run state. -/
def view (s : State) : Word × Word × Word × RunState := (s.regs.a, s.ex, s.pc, s.run)

/-! ### WellFormed: one ill-formed term for each check -/

theorem test_wf_refuses_pop_in_b : (Instr.set .pop (.reg .a)).wf = false := by decide
theorem test_wf_refuses_literal_in_b : (Instr.set (.inlineLit 1) (.reg .a)).wf = false := by decide
theorem test_wf_refuses_push_in_a : (Instr.set (.reg .a) .push).wf = false := by decide
theorem test_wf_refuses_push_in_special : (Instr.jsr .push).wf = false := by decide
theorem test_wf_refuses_literal_31 : (Instr.set (.reg .a) (.inlineLit 31)).wf = false := by decide
theorem test_wf_refuses_literal_minus_two : (Instr.iag (.inlineLit 0xFFFE)).wf = false := by decide
theorem test_wf_admits_the_bounds :
    (Instr.set .push .pop).wf = true ∧ (Instr.set .pick (.inlineLit 30)).wf = true ∧
      (Instr.jsr (.inlineLit 0xFFFF)).wf = true := by decide

/-! ### Decode: words written bit by bit, aaaaaa bbbbb ooooo and aaaaaa sssss 00000 (30_encoding.md R61, R62, R70, R71) -/

theorem test_decode_move :
    decode 0b000001_00000_00001 = some (.set (.reg .a) (.reg .b)) ∧
    decode 0b001111_01110_11110 = some (.sti (.ind .i) (.ind .j)) ∧
    decode 0b001111_01110_11111 = some (.std (.ind .i) (.ind .j)) := by decide

theorem test_decode_arith :
    decode 0b000001_00000_00010 = some (.add (.reg .a) (.reg .b)) ∧
    decode 0b100010_11100_00011 = some (.sub .pc (.inlineLit 1)) ∧
    decode 0b000111_00010_00100 = some (.mul (.reg .c) (.reg .j)) ∧
    decode 0b010000_01000_00101 = some (.mli (.ind .a) (.indNext .a)) ∧
    decode 0b011000_11000_00110 = some (.div .push .pop) ∧
    decode 0b011001_11010_00111 = some (.dvi .pick .peek) ∧
    decode 0b011011_11011_01000 = some (.mod .sp .sp) ∧
    decode 0b011101_11110_01001 = some (.mdi .nextInd .ex) ∧
    decode 0b011100_11111_11010 = some (.adx .nextLit .pc) ∧
    decode 0b011110_10111_11011 = some (.sbx (.indNext .j) .nextInd) := by decide

theorem test_decode_bitwise :
    decode 0b000001_00000_01010 = some (.and (.reg .a) (.reg .b)) ∧
    decode 0b111111_00011_01011 = some (.bor (.reg .x) (.inlineLit 30)) ∧
    decode 0b100000_00000_01100 = some (.xor (.reg .a) (.inlineLit 0xFFFF)) ∧
    decode 0b100001_00100_01101 = some (.shr (.reg .y) (.inlineLit 0)) ∧
    decode 0b011111_00101_01110 = some (.asr (.reg .z) .nextLit) ∧
    decode 0b100010_00000_01111 = some (.shl (.reg .a) (.inlineLit 1)) := by decide

theorem test_decode_conditional :
    decode 0b000001_00000_10000 = some (.ifb (.reg .a) (.reg .b)) ∧
    decode 0b000001_00000_10001 = some (.ifc (.reg .a) (.reg .b)) ∧
    decode 0b100110_00000_10010 = some (.ife (.reg .a) (.inlineLit 5)) ∧
    decode 0b100110_00000_10011 = some (.ifn (.reg .a) (.inlineLit 5)) ∧
    decode 0b000001_00000_10100 = some (.ifg (.reg .a) (.reg .b)) ∧
    decode 0b000001_00000_10101 = some (.ifa (.reg .a) (.reg .b)) ∧
    decode 0b000001_00000_10110 = some (.ifl (.reg .a) (.reg .b)) ∧
    decode 0b000001_00000_10111 = some (.ifu (.reg .a) (.reg .b)) := by decide

theorem test_decode_special :
    decode 0b011111_00001_00000 = some (.jsr .nextLit) ∧
    decode 0b100100_01000_00000 = some (.int (.inlineLit 3)) ∧
    decode 0b000000_01001_00000 = some (.iag (.reg .a)) ∧
    decode 0b011111_01010_00000 = some (.ias .nextLit) ∧
    decode 0b100001_01011_00000 = some (.rfi (.inlineLit 0)) ∧
    decode 0b100010_01100_00000 = some (.iaq (.inlineLit 1)) ∧
    decode 0b000000_10000_00000 = some (.hwn (.reg .a)) ∧
    decode 0b011000_10001_00000 = some (.hwq .pop) ∧
    decode 0b011111_10010_00000 = some (.hwi .nextLit) := by decide

/-- EN21 to EN29. -/
theorem test_decode_refuses_unassigned :
    decode 0x0000 = none ∧ decode 0x0018 = none ∧ decode 0x0019 = none ∧ decode 0x001C = none ∧ decode 0x001D = none ∧
    decode 0x0040 = none ∧ decode 0x01A0 = none ∧ decode 0x0260 = none ∧ decode 0xFFE0 = none := by decide

/-- EN3, EN13, EN19, EN20, EN30: the lengths. -/
theorem test_lengths :
    wordLength 0x7FC1 = 3 ∧ wordLength 0x0020 = 1 ∧ wordLength 0x4601 = 3 ∧ wordLength 0xFFFF = 2 ∧
      wordLength 0x03E1 = 2 := by decide

/-- A table word of one word, and one whose second word the table does not give. -/
theorem test_table_words :
    decodeTableWord 16 0x0402 = some (.add (.reg .a) (.reg .b)) ∧
    decodeTableWord 32 0x12347C01 = some (.set (.reg .a) .nextLit) ∧ decodeTableWord 16 0x0018 = none := by decide

/-! ### Operands (2.2) -/

/-- OP4: SP wraps down from 0. -/
theorem test_push_wraps :
    let t := tick { boot [0x7F01, 0x1234] with sp := 0 }
    t.sp = 0xFFFF ∧ t.readMem 0xFFFF = 0x1234 ∧ t.pc = 2 := by decide

/-- OP6: SP wraps up from 0xFFFF. -/
theorem test_pop_wraps :
    let t := tick ((boot [0x6001]).writeMem 0xFFFF 0x77)
    t.regs.a = 0x77 ∧ t.sp = 0 := by decide

/-- OP10: PUSH first, then POP gives SP back. -/
theorem test_set_push_pop :
    tick ({ boot [0x6301] with sp := 0xFFFE }.writeMem 0xFFFE 0x33) =
      { { boot [0x6301] with sp := 0xFFFE }.writeMem 0xFFFE 0x33 with pc := 1 } := by decide

/-- OP9: PICK as a destination. -/
theorem test_pick_destination :
    (tick { boot [0x9B41, 2] with sp := 0xFFFD }).readMem 0xFFFF = 5 := by decide

/-- OP14: B's next word stands before A's. -/
theorem test_next_word_order :
    (tick ((bootAB 0x100 0x200 0 [0x4601, 0x10, 0x20]).writeMem 0x220 0xCAFE)).readMem 0x110 = 0xCAFE := by decide

/-- OP12: PC reads as the address after the opcode word. -/
theorem test_pc_operand : (tick (boot [0x7361])).sp = 1 := by decide

/-! ### Move (2.3) -/

/-- MV7: the address sum wraps. -/
theorem test_set_wraps : (tick (bootAB 0 0xFFF8 0 [0xA221, 0x10])).readMem 8 = 7 := by decide

/-- MV8: a literal destination discards the write. -/
theorem test_set_literal_destination :
    tick (bootAB 9 0 0 [0x03E1, 5]) = { bootAB 9 0 0 [0x03E1, 5] with pc := 2 } := by decide

/-- MV13: I and J wrap to 0. -/
theorem test_sti_wraps : (tick (bootIJ 3 0xFFFF 0xFFFF [0x041E])).regs = (bootAB 3 3 0 []).regs := by decide

/-- MV15: the destination is J itself. -/
theorem test_sti_to_j : (tick (bootIJ 0 2 9 [0x18FE])).regs = (bootIJ 0 3 3 []).regs := by decide

/-- MV14: the write to I comes before the decrement. -/
theorem test_std_to_i : (tick (bootIJ 0 0 0 [0x98DF])).regs = (bootIJ 0 4 0xFFFF []).regs := by decide

/-! ### Arithmetic (2.4) -/

/-- AR3. -/
theorem test_add_carry : view (tick (bootAB 0xFFFF 0xFFFF 0 [0x0402])) = (0xFFFE, 1, 1, .running) := by decide
/-- AR5, PA6: the destination is EX. -/
theorem test_add_to_ex :
    (tick (bootAB 0 0 5 [0x8BA2])).ex = 0 ∧
      (tick { bootAB 0 0 5 [0x8BA2] with params := { defaultParams with exDestOrder := .bLast } }).ex = 6 := by decide
/-- AR7. -/
theorem test_sub_borrow : view (tick (bootAB 0 0 0 [0x8803])) = (0xFFFF, 0xFFFF, 1, .running) := by decide
/-- AR6. -/
theorem test_sub_order : view (tick (bootAB 5 3 0 [0x0403])) = (2, 0, 1, .running) := by decide
/-- AR10. -/
theorem test_mul : view (tick (bootAB 0xFFFF 0xFFFF 0 [0x0404])) = (1, 0xFFFE, 1, .running) := by decide
/-- AR11. -/
theorem test_mli_negative : view (tick (bootAB 0xFFFF 2 0 [0x0405])) = (0xFFFE, 0xFFFF, 1, .running) := by decide
/-- AR13. -/
theorem test_mli_extreme : view (tick (bootAB 0x8000 0xFFFF 0 [0x0405])) = (0x8000, 0, 1, .running) := by decide
/-- AR14. -/
theorem test_div_fraction : view (tick (bootAB 7 2 0 [0x0406])) = (3, 0x8000, 1, .running) := by decide
/-- AR16. -/
theorem test_div_by_zero : view (tick (bootAB 0x1234 0 0x5555 [0x8406])) = (0, 0, 1, .running) := by decide
/-- AR17: toward zero. -/
theorem test_dvi_rounds : view (tick (bootAB 0xFFF9 2 0 [0x0407])) = (0xFFFD, 0x8000, 1, .running) := by decide
/-- AR18. -/
theorem test_dvi_overflow : view (tick (bootAB 0x8000 0xFFFF 0 [0x0407])) = (0x8000, 0, 1, .running) := by decide
/-- AR20: EX is not written. -/
theorem test_mod_keeps_ex : view (tick (bootAB 7 2 0x1111 [0x0408])) = (1, 0x1111, 1, .running) := by decide
/-- AR21, PA7. -/
theorem test_mod_by_zero :
    view (tick (bootAB 7 0 0x1111 [0x8408])) = (0, 0, 1, .running) ∧
      view (tick { bootAB 7 0 0x1111 [0x8408] with params := { defaultParams with modZeroEx := .keep } }) =
        (0, 0x1111, 1, .running) := by decide
/-- AR22: the sign of the dividend. -/
theorem test_mdi_sign : view (tick (bootAB 0xFFF9 0x10 0x1111 [0x0409])) = (0xFFF9, 0x1111, 1, .running) := by decide
/-- AR24, PA3. -/
theorem test_mdi_overflow :
    view (tick (bootAB 0x8000 0xFFFF 0x1111 [0x0409])) = (0, 0x1111, 1, .running) ∧
      view (tick { bootAB 0x8000 0xFFFF 0 [0x0409] with params := { defaultParams with signedDivOverflow := .fault } }) =
        (0x8000, 0, 1, .faulted .arithFault 0 0x09) := by decide
/-- AR27. -/
theorem test_adx : view (tick (bootAB 0xFFFF 0xFFFF 1 [0x041A])) = (0xFFFF, 1, 1, .running) := by decide
/-- PA5. -/
theorem test_adx_signed :
    view (tick { bootAB 0 0 0xFFFF [0x041A] with params := { defaultParams with carryInSigned := true } }) =
      (0xFFFF, 0xFFFF, 1, .running) := by decide
/-- AR31. -/
theorem test_sbx : view (tick (bootAB 5 3 0xFFFF [0x041B])) = (1, 1, 1, .running) := by decide
/-- PA4. -/
theorem test_sbx_signed :
    view (tick { bootAB 0 0 0xFFFF [0x041B] with params := { defaultParams with carryInSigned := true } }) =
      (0xFFFF, 0xFFFF, 1, .running) := by decide

/-! ### Bitwise and shifts (2.5) -/

/-- BW1. -/
theorem test_and : view (tick (bootAB 0xF0F0 0x3C3C 0x1111 [0x040A])) = (0x3030, 0x1111, 1, .running) := by decide
/-- BW2. -/
theorem test_bor : view (tick (bootAB 0xF0F0 0x0F0F 0 [0x040B])) = (0xFFFF, 0, 1, .running) := by decide
/-- BW4. -/
theorem test_xor : view (tick (bootAB 0x1234 0 0 [0x800C])) = (0xEDCB, 0, 1, .running) := by decide
/-- BW5. -/
theorem test_shr : view (tick (bootAB 0x8001 0 0 [0x880D])) = (0x4000, 0x8000, 1, .running) := by decide
/-- BW9: a count of 17. -/
theorem test_shr_wide : view (tick (bootAB 0xABCD 0x11 0 [0x040D])) = (0, 0x55E6, 1, .running) := by decide
/-- BW11. -/
theorem test_asr : view (tick (bootAB 0x8001 0 0 [0x880E])) = (0xC000, 0x8000, 1, .running) := by decide
/-- BW14: a count of 17. -/
theorem test_asr_wide : view (tick (bootAB 0x8000 0x11 0 [0x040E])) = (0xFFFF, 0xC000, 1, .running) := by decide
/-- BW17. -/
theorem test_shl : view (tick (bootAB 0x1234 0 0 [0x940F])) = (0x2340, 1, 1, .running) := by decide
/-- BW20: a count of 20; PA1: the fault. -/
theorem test_shl_wide :
    view (tick (bootAB 0x1234 0x14 0 [0x040F])) = (0, 0x2340, 1, .running) ∧
      view (tick { bootAB 0x1234 0 0 [0xC40F] with params := { defaultParams with wideShift := .fault } }) =
        (0x1234, 0, 1, .faulted .arithFault 0 0x0F) := by decide

/-! ### Conditionals (2.6) -/

/-- CD1, CD2. -/
theorem test_ifb :
    (tick (bootAB 0x101 0x100 0 [0x0410, 0x8841])).pc = 1 ∧ (tick (bootAB 0x101 0x10 0 [0x0410, 0x8841])).pc = 2 := by decide
/-- CD3, CD4. -/
theorem test_ifc :
    (tick (bootAB 0x101 0x10 0 [0x0411, 0x8841])).pc = 1 ∧ (tick (bootAB 0x101 1 0 [0x0411, 0x8841])).pc = 2 := by decide
/-- CD5, CD6: the skipped SET has two words. -/
theorem test_ife :
    (tick (bootAB 5 0 0 [0x9812, 0x8841])).pc = 1 ∧
      (tick (bootAB 4 0 0 [0x9812, 0x7C41, 0x1234])).pc = 3 := by decide
/-- CD7, CD8. -/
theorem test_ifn :
    (tick (bootAB 4 0 0 [0x9813, 0x8841])).pc = 1 ∧ (tick (bootAB 5 0 0 [0x9813, 0x8841])).pc = 2 := by decide
/-- CD9, CD10: unsigned, and false on equal. -/
theorem test_ifg :
    (tick (bootAB 0xFFFF 1 0 [0x0414, 0x8841])).pc = 1 ∧ (tick (bootAB 1 1 0 [0x0414, 0x8841])).pc = 2 := by decide
/-- Signed greater (45_conditional.md R190), by hand: 1 > -1, and not -1 > 1. -/
theorem test_ifa :
    (tick (bootAB 1 0xFFFF 0 [0x0415, 0x8841])).pc = 1 ∧ (tick (bootAB 0xFFFF 1 0 [0x0415, 0x8841])).pc = 2 := by decide
/-- Unsigned less (45_conditional.md R191), by hand: 1 < 0xFFFF, and not 0xFFFF < 1. -/
theorem test_ifl :
    (tick (bootAB 1 0xFFFF 0 [0x0416, 0x8841])).pc = 1 ∧ (tick (bootAB 0xFFFF 1 0 [0x0416, 0x8841])).pc = 2 := by decide
/-- Signed less (45_conditional.md R192), by hand: -1 < 1, and not 1 < -1. -/
theorem test_ifu :
    (tick (bootAB 0xFFFF 1 0 [0x0417, 0x8841])).pc = 1 ∧ (tick (bootAB 1 0xFFFF 0 [0x0417, 0x8841])).pc = 2 := by decide
/-- PA8: under `lengthOnly` the undecodable word is passed. -/
theorem test_skip_length_only :
    view (tick { bootAB 1 0 0 [0x8412, 0x001D] with params := { defaultParams with skipInvalid := .lengthOnly } }) =
      (1, 0, 2, .running) := by decide
/-- CY10: under `fault` it is reported at its own address. -/
theorem test_skip_faults :
    view (tick (bootAB 1 0 0 [0x8412, 0x001D])) = (1, 0, 1, .faulted .decodeError 1 0x001D) := by decide

/-! ### Special (2.7) -/

/-- E4. -/
theorem test_jsr :
    let t := tick (boot [0x7C20, 3, 0x8801, 0x8C21])
    t.pc = 3 ∧ t.sp = 0xFFFE ∧ t.readMem 0xFFFE = 2 := by decide
/-- CY5: the push happens and the run ends. -/
theorem test_jsr_to_itself :
    let t := tick (boot [0x7C20, 0])
    t.pc = 0 ∧ t.sp = 0xFFFE ∧ t.readMem 0xFFFE = 2 ∧ t.run = .finished := by decide
/-- 46_special.md R202, R203. -/
theorem test_iag : (tick { boot [0x0120] with ia := 0x1234 }).regs.a = 0x1234 := by decide
theorem test_ias : (tick (boot [0x7D40, 0x1234])).ia = 0x1234 := by decide
/-- SX9, SX8. -/
theorem test_int_nop : tick (withNop (boot [0x9100])) = { withNop (boot [0x9100]) with pc := 1 } := by decide
theorem test_int_refuse :
    view (tick (boot [0x9100])) = (0, 0, 1, .faulted .stub 0 0x08) := by decide
/-- SX10. -/
theorem test_rfi_refuse :
    view (tick (boot [0x8560])) = (0, 0, 1, .faulted .stub 0 0x0B) := by decide
/-- SX11. -/
theorem test_iaq_nop : tick (withNop (boot [0x8980])) = { withNop (boot [0x8980]) with pc := 1 } := by decide
/-- SX12: A is not written. -/
theorem test_hwn_nop :
    tick (withNop (bootAB 7 0 0 [0x0200])) = { withNop (bootAB 7 0 0 [0x0200]) with pc := 1 } := by decide
/-- SX13: the POP stays. -/
theorem test_hwq_refuse :
    let t := tick (boot [0x6220])
    t.sp = 0 ∧ t.run = .faulted .stub 0 0x11 := by decide
/-- SX14: the next word is consumed. -/
theorem test_hwi_nop :
    tick (withNop (boot [0x7E40, 0x0100])) = { withNop (boot [0x7E40, 0x0100]) with pc := 2 } := by decide

/-! ### The tick (2.8, 2.9) -/

/-- CY8, CY9: the fetch fault, and the tick after it. -/
theorem test_fetch_fault :
    tick State.reset = { State.reset with run := .faulted .decodeError 0 0 } ∧
      tick (tick (boot [0x001C])) = tick (boot [0x001C]) := by decide
/-- CY4: PC stalls; EX is written on the way. -/
theorem test_finish : view (tick (boot [0x8382])) = (0, 1, 0, .finished) := by decide
/-- PA9. -/
theorem test_no_halt_detect :
    view (tick { boot [0x8B83] with params := { defaultParams with haltDetect := false } }) = (0, 0, 0, .running) := by decide
/-- The host's two questions, on `ADD A, B` and on a word with an extra word of zeros. -/
theorem test_with_fetch_word :
    (tick (State.reset.withFetchWord 16 0x0402)).pc = 1 ∧
      tick (State.reset.withFetchWord 16 0x7C01) = { State.reset.withFetchWord 16 0x7C01 with pc := 2 } ∧
      (tick (State.reset.withFetchWord 32 0x12347C01)).regs.a = 0x1234 := by decide

/-! ### Memory and load -/

/-- Equal memories are equal lists: writing back 0 forgets the entry. -/
theorem test_memory_canonical :
    Memory.write (Memory.write (Memory.write [] 5 1) 3 2) 5 0 = [(3, 2)] ∧
      Memory.write (Memory.write [] 5 1) 3 2 = Memory.write (Memory.write [] 3 2) 5 1 := by decide
theorem test_memory_wf_refuses :
    Memory.wf [(5, 1), (3, 2)] = false ∧ Memory.wf [(3, 1), (3, 2)] = false ∧ Memory.wf [(3, 0)] = false ∧
      Memory.wf [(65536, 1)] = false := by decide
/-- R291: a load replaces everything, from a faulted machine too. -/
theorem test_load :
    State.load ⟨(boot []).regs, 0, 0⟩ [(9, 4)] [0x8801] (tick (boot [0x001C])) =
      .next ((boot [0x8801]).writeMem 9 4) := rfl

/-! ### The assembler (2.10) -/

/-- AS5, AS8, AS10, AS15, AS21. -/
theorem test_assemble_operands :
    assemble "SET A, -1" = .ok [0x8001] ∧ assemble "SET 1, A" = .ok [0x03E1, 1] ∧
    assemble "SET [0x10+A], 1" = .ok [0x8A01, 0x10] ∧ assemble "SET A, [SP+3]" = .ok [0x6801, 3] ∧
    assemble ":l SET [l+2], 1" = .ok [0x8BC1, 2] := by decide
/-- AS22. -/
theorem test_assemble_data : assemble "DAT 1, 0x20, \"hi\"" = .ok [1, 0x20, 0x68, 0x69] := by decide
/-- E10: a forward reference. -/
theorem test_assemble_forward : assemble "JSR l\n:l SET PC, l" = .ok [0x7C20, 2, 0x7F81, 2] := by decide
/-- E12: three errors on three lines. -/
theorem test_assemble_errors :
    assemble "SET A\nFOO A, B\nSET [A+B], 1" =
      .err [⟨1, .operandCount⟩, ⟨2, .unknownMnemonic⟩, ⟨3, .badBracket⟩] := by decide
/-- AS42, AS44. -/
theorem test_assemble_labels :
    assemble "SET PC, nowhere" = .err [⟨1, .undefinedLabel⟩] ∧
      assemble ":l FOO\nSET PC, l" = .err [⟨1, .unknownMnemonic⟩] := by decide

/-! ### Witnesses: for each obligation that has hypotheses, inputs that meet them, clause by clause -/

/-- The parameters under which the overflowing division and the wide shifts fault. -/
def faultParams : Params :=
  { defaultParams with signedDivOverflow := .fault, wideShift := .fault }

theorem witness_DecodeAndEncodeAreInverse :
    (Instr.set .push (.inlineLit 0xFFFF)).wf = true ∧ (Instr.std .nextLit (.inlineLit 30)).wf = true ∧
      decode 0xFFFF = some (.std .nextLit (.inlineLit 30)) := by decide

theorem witness_LowFiveBitsTellTheFormat :
    decode 0x7C20 = some (.jsr .nextLit) ∧ (0x7C20 : Word).toNat % 32 = 0 ∧
      decode 0xFFFF = some (.std .nextLit (.inlineLit 30)) ∧ (0xFFFF : Word).toNat % 32 ≠ 0 := by decide

theorem witness_LengthIsKnownFromTheOpcodeWord :
    decode 0x0020 = some (.jsr (.reg .a)) ∧ decode 0x4601 = some (.set (.indNext .a) (.indNext .b)) := by decide

theorem witness_RegisterAndNextWordModes : 0 < 8 ∧ 7 < 8 := by decide

theorem witness_PcAndInlineLiteralModes : 0x20 ≤ (0x20 : BitVec 6).toNat ∧ 0x20 ≤ (0x3F : BitVec 6).toNat := by decide

theorem witness_AddressesWrapModulo65536 :
    (eval (.indNext .b) (bootAB 0 0xFFFF 0 [2])).1 = .mem 1 ∧ (eval .pick (boot [3])).1 = .mem 2 ∧
      (eval .push { boot [] with sp := 0 }).1 = .mem 0xFFFF ∧ decode (boot [0x4601]).fetchWord ≠ none ∧
      (bootAB 0 0xFFFF 0 [2]).regs.get .b = 0xFFFF ∧
      (bootAB 0 0xFFFF 0 [2]).readMem (bootAB 0 0xFFFF 0 [2]).pc = 2 := by decide

theorem witness_LocationsReadBackWhatIsWritten : ∀ u, Location.mem 0xFFFF ≠ .lit u := by
  intro u h; cases h

theorem witness_WorkedCasesOfOperandTiming : Memory.wf (boot [0x6301]).mem = true := by decide

theorem witness_SetLiteralTakesOneTick :
    (boot [0x7C01, 0xFFFF]).run = .running ∧ decode (boot [0x7C01, 0xFFFF]).fetchWord = some (.set (.reg .a) .nextLit) ∧
      (boot [0x7C01, 0xFFFF]).readMem ((boot [0x7C01, 0xFFFF]).pc + 1) = 0xFFFF ∧ (boot [0x8001]).run = .running ∧
      decode (boot [0x8001]).fetchWord = some (.set (.reg .a) (.inlineLit 0xFFFF)) := by decide

theorem witness_DivStoresQuotientAndFraction :
    (resolveBasic (.reg .a) (.reg .b) (bootAB 1 0 0 [])).av = 0 ∧
      (resolveBasic (.reg .a) (.reg .b) (bootAB 0xFFFF 1 0 [])).av ≠ 0 := by decide

theorem witness_DviRoundsTowardZero :
    let r := fun (a b : Word) => resolveBasic (.reg .a) (.reg .b) (bootAB a b 0 [])
    (boot []).params.signedDivOverflow = .wrap ∧ (r 5 0).av = 0 ∧
      ((r 0x8000 1).av ≠ 0 ∧ ¬ ((r 0x8000 1).bv = 0x8000 ∧ (r 0x8000 1).av = 0xFFFF)) ∧
      ((r 0x8000 0xFFFF).bv = 0x8000 ∧ (r 0x8000 0xFFFF).av = 0xFFFF) := by decide

theorem witness_ModAndMdiStoreTheRemainder :
    let r := fun (a b : Word) => resolveBasic (.reg .a) (.reg .b) (bootAB a b 0 [])
    (boot []).params.signedDivOverflow = .wrap ∧ (r 5 1).av ≠ 0 ∧ (r 5 0).av = 0 ∧
      (boot []).params.modZeroEx = .clear ∧
      ({ boot [] with params := { defaultParams with modZeroEx := .keep } } : State).params.modZeroEx = .keep := by decide

theorem witness_SignedDivisionOverflowFaults :
    let s := { bootAB 0x8000 0xFFFF 0 [] with params := faultParams }
    let r := resolveBasic (.reg .a) (.reg .b) s
    s.params.signedDivOverflow = .fault ∧ r.bv = 0x8000 ∧ r.av = 0xFFFF := by decide

/-- The two instructions of the pair, on 0x0001FFFF + 0x00020003 (95_test_vectors.md P4). -/
theorem witness_AddThenAdxAddsTwoWords :
    Reg.a ≠ Reg.b ∧ Reg.a ≠ Reg.x ∧
      ∃ t u, exec (.add (.reg .a) (.reg .c)) (bootAB 0xFFFF 1 0 []) = .next t ∧
        exec (.adx (.reg .b) (.reg .x)) t = .next u :=
  ⟨by decide, by decide, _, _, rfl, rfl⟩

theorem witness_SubThenSbxSubtractsTwoWords :
    let s := { bootAB 0 1 0 [] with params := { defaultParams with carryInSigned := true } }
    Reg.a ≠ Reg.b ∧ Reg.a ≠ Reg.x ∧ s.params.carryInSigned = true ∧
      ∃ t u, exec (.sub (.reg .a) (.reg .c)) s = .next t ∧ exec (.sbx (.reg .b) (.reg .x)) t = .next u :=
  ⟨by decide, by decide, by decide, _, _, rfl, rfl⟩

theorem witness_ShiftsKeepTheBitsShiftedOut :
    let r := resolveBasic (.reg .a) (.inlineLit 15) { boot [] with params := faultParams }
    (boot []).params.wideShift = .math ∧ r.av.toNat < 16 := by decide

theorem witness_WideShiftsFaultWhereSet :
    let s := { boot [] with params := faultParams }
    s.params.wideShift = .fault ∧ 16 ≤ (resolveBasic (.reg .a) (.inlineLit 16) s).av.toNat := by decide

/-- The condition of each IFx holds at one of these pairs and fails at another, over a decodable word. -/
theorem witness_ConditionalsRunOrSkipOneInstruction :
    (((1 : Word) &&& 1 ≠ 0) ∧ ¬ ((1 : Word) &&& 2 ≠ 0)) ∧
      (((1 : Word) &&& 2 = 0) ∧ ¬ ((1 : Word) &&& 1 = 0)) ∧
      ((0xFFFF : Word) = 0xFFFF ∧ ¬ (0 : Word) = 0xFFFF) ∧ ((0 : Word) ≠ 0xFFFF ∧ ¬ (0xFFFF : Word) ≠ 0xFFFF) ∧
      (((1 : Word).toNat > (0 : Word).toNat) ∧ ¬ ((1 : Word).toNat > (1 : Word).toNat)) ∧
      (((1 : Word).toInt > (0xFFFF : Word).toInt) ∧ ¬ ((0xFFFF : Word).toInt > (1 : Word).toInt)) ∧
      (((0 : Word).toNat < (0xFFFF : Word).toNat) ∧ ¬ ((1 : Word).toNat < (1 : Word).toNat)) ∧
      (((0xFFFF : Word).toInt < (0 : Word).toInt) ∧ ¬ ((0 : Word).toInt < (0xFFFF : Word).toInt)) ∧
      decode ((boot [0x0412, 0x8841]).readMem
        (resolveBasic (.reg .a) (.reg .b) (boot [0x0412, 0x8841])).st.pc) = some (.set (.reg .c) (.inlineLit 1)) := by
  decide

theorem witness_SkipOverAnUndecodableWord :
    let s := bootAB 0 1 0 [0x0412, 0x0018]
    let r := resolveBasic (.reg .a) (.reg .b) s
    ¬ r.bv = r.av ∧ decode (s.readMem r.st.pc) = none ∧ s.params.skipInvalid = .fault ∧
      ({ s with params := { defaultParams with skipInvalid := .lengthOnly } } : State).params.skipInvalid =
        .lengthOnly := by decide

theorem witness_ReturnUndoesTheCall : ∃ t, exec (.jsr (.reg .a)) (boot []) = .next t ∧
    Operand.reg .a ≠ .pop ∧ Operand.reg .a ≠ .push := ⟨_, rfl, by decide, by decide⟩

/-- The pair, and an instruction that is no IAS. -/
theorem witness_IagReadsWhatIasWrote :
    (∃ t u, exec (.ias .nextLit) (boot []) = .next t ∧ exec (.iag (.reg .c)) t = .next u) ∧
      (∃ t, exec (.rfi .pop) (boot []) = .next t) ∧ ∀ a, Instr.rfi .pop ≠ .ias a :=
  ⟨⟨_, _, rfl, rfl⟩, ⟨_, rfl⟩, by intro a h; cases h⟩

theorem witness_StubsAreNopsUnderNop : (withNop (boot [])).params.stubPolicy = .nop := rfl

theorem witness_StubsFaultUnderRefuse :
    (boot []).params.stubPolicy = .refuse := rfl

/-- An instruction that leaves PC elsewhere, one that stalls, and one that faults. -/
theorem witness_StepRunsTheDecodedInstruction :
    (boot [0x0402]).run = .running ∧ decode ((boot [0x0402]).readMem 0) = some (.add (.reg .a) (.reg .b)) ∧
      decode ((boot [0x8B83]).readMem 0) = some (.sub .pc (.inlineLit 1)) := by decide

theorem witness_FetchOfAnUndecodableWordFaults :
    (boot [0x001D]).run = .running ∧ decode ((boot [0x001D]).readMem (boot [0x001D]).pc) = none := by decide

theorem witness_StoppedMachineNeverChanges :
    ({ boot [] with run := .finished } : State).run ≠ .running ∧ (tick (boot [])).run ≠ .running ∧
      ([] : List Word).length ≤ 65536 ∧ (List.replicate 65536 (0 : Word)).length ≤ 65536 := by
  refine ⟨by decide, by decide, by decide, ?_⟩
  rw [List.length_replicate]

theorem witness_JumpToItselfFinishes :
    let s := { (boot []).writeMem 0xFFFF 0x7F81 |>.writeMem 0 0xFFFF with pc := 0xFFFF }
    s.run = .running ∧ s.readMem s.pc = 0x7F81 ∧ s.readMem (s.pc + 1) = s.pc := by decide

/-- A next state of each kind, with the field it changes. -/
theorem witness_ExecChangesOnlyItsTargets :
    (∃ t, exec (.sti .sp .nextLit) (boot []) = .next t ∧ t.regs.get .i ≠ (boot []).regs.get .i ∧ t.sp ≠ (boot []).sp) ∧
      (∃ t, exec (.add .peek (.inlineLit 1)) (bootAB 0 0 7 []) = .next t ∧
        t.readMem 0xFFFF ≠ (bootAB 0 0 7 []).readMem 0xFFFF ∧ t.ex ≠ (bootAB 0 0 7 []).ex) ∧
      (∃ t, exec (.ias (.inlineLit 1)) (boot []) = .next t ∧ t.ia ≠ (boot []).ia) ∧
      (∃ t, exec (.ife (.reg .a) (.inlineLit 1)) (boot []) = .next t ∧ t.run ≠ (boot []).run) ∧
      (∃ t, exec (.set .pc .nextLit) (boot []) = .next t ∧ t.pc ≠ 2) ∧
      (∃ t, exec (.jsr .pc) (bootAB 0 0 0 [0x7020]) = .next t ∧ t.readMem 0xFFFE ≠ 0) ∧
      (∃ t, exec (.jsr .nextLit) (boot []) = .next t ∧ t.pc ≠ 2) ∧
      (∃ t, exec (.ifl .peek .peek) (boot [0x6736, 0x7FC1]) = .next t ∧ t.pc = 4) :=
  ⟨⟨_, rfl, by decide, by decide⟩, ⟨_, rfl, by decide, by decide⟩, ⟨_, rfl, by decide⟩, ⟨_, rfl, by decide⟩,
    ⟨_, rfl, by decide⟩, ⟨_, rfl, by decide⟩, ⟨_, rfl, by decide⟩, ⟨_, rfl, by decide⟩⟩

/-- A fault at the fetch, and one at a skip. -/
theorem witness_SourceSettingsFaultOnlyOnUndecodableWords :
    sourceSettings (withNop (boot [])).params ∧ (withNop (boot [0x0018])).run = .running ∧
      (∃ t, step (withNop (boot [0x0018])) = .next t ∧ t.run = .faulted .decodeError 0 0x0018) ∧
      (∃ t, step (withNop (bootAB 0 1 0 [0x0412, 0x0018])) = .next t ∧ t.run = .faulted .decodeError 1 0x0018) :=
  ⟨⟨rfl, rfl, rfl, rfl⟩, rfl, ⟨_, rfl, by decide⟩, ⟨_, rfl, by decide⟩⟩

theorem inv_running (s : State) (h : Memory.wf s.mem = true) (hr : s.run = .running) : Inv s := by
  constructor
  · exact h
  all_goals intros; simp_all

/-- Ticks that run on, finish and fault, each from a state of the invariant; and a host write to a running machine. -/
theorem witness_EveryTickKeepsTheInvariant :
    Inv (boot [0x8801]) ∧ Inv (boot [0x8B83]) ∧ Inv (boot [0x0018]) ∧
      (∃ t, step (boot [0x8801]) = .next t ∧ t.run = .running) ∧
      (∃ t, step (boot [0x8B83]) = .next t ∧ t.run = .finished) ∧
      (∃ t, step (boot [0x0018]) = .next t ∧ t.run = .faulted .decodeError 0 0x0018) ∧
      (∀ reason pc w, (boot [0x8801]).run ≠ .faulted reason pc w) :=
  ⟨inv_running _ (by decide) rfl, inv_running _ (by decide) rfl, inv_running _ (by decide) rfl,
    ⟨_, rfl, by decide⟩, ⟨_, rfl, by decide⟩, ⟨_, rfl, by decide⟩, by intro _ _ _ h; cases h⟩

theorem witness_LoadEstablishesTheInvariant :
    Memory.wf [(9, 4)] = true ∧ ∃ t, State.load ⟨(boot []).regs, 0, 0⟩ [(9, 4)] [0x8801] (boot [0x0018]) = .next t :=
  ⟨by decide, _, rfl⟩

theorem witness_LoadStartsRunningAtZero :
    ∃ t, State.load ⟨(boot []).regs, 7, 8⟩ [] [0x8801] (tick (boot [])) = .next t := ⟨_, rfl⟩

theorem witness_LoadReplacesTheWholeState :
    (List.replicate 65536 (0 : Word)).length ≤ 65536 ∧ 65536 < (List.replicate 65537 (0 : Word)).length := by
  rw [List.length_replicate, List.length_replicate]; decide

theorem witness_HostWritesTouchOnlyMemory :
    (∀ p ∈ [((5 : Word), (1 : Word))], p.1 ≠ 6) ∧ Memory.wf (boot [1]).mem = true :=
  ⟨by simp, by decide⟩

theorem witness_AsmOperandsMatchTheirFields :
    parseOperand .b ['P', 'U', 'S', 'H'] = .ok ⟨.push, none⟩ ∧
      parseOperand .a ['3', '0'] = .ok ⟨.inlineLit 30, none⟩ ∧
      parseOperand .b ['3', '0'] = .ok ⟨.nextLit, some (.word 30)⟩ ∧
      parseOperand .a ['[', 'S', 'P', '+', '3', ']'] = .ok ⟨.pick, some (.word 3)⟩ := by decide

theorem witness_AsmLengthsMirrorTheDecoder :
    parseStatement "SET [l+A], 31".toList =
        .ok (.instr (.set (.indNext .a) .nextLit) [.label ['l'] 0, .word 31]) ∧
      (AsmStmt.instr (.set (.indNext .a) .nextLit) [.label ['l'] 0, .word 31]).emit [(['l'], 7)] =
        some [0x7E01, 7, 31] := by decide

/-- Two statements, the second at offset 2. -/
theorem witness_AsmOutputDecodesToItsStatements :
    assembleText "JSR l\n:l SET PC, l".toList = .ok [0x7C20, 2, 0x7F81, 2] ∧
      (pass1 1 0 [] (sourceLines "JSR l\n:l SET PC, l".toList)).stmts =
        [(1, .instr (.jsr .nextLit) [.label ['l'] 0])] ++ (2, .instr (.set .pc .nextLit) [.label ['l'] 0]) :: [] := by
  decide

theorem witness_AsmOutputCanBeLoaded : assembleText "SET A, 1".toList = .ok [0x8801] := by decide

theorem witness_FirstLabelDefinitionStands :
    stripLine " :l DAT 1 ; again".toList = ':' :: "l DAT 1".toList ∧ firstToken "l DAT 1".toList = ['l'] ∧
      validLabel ['l'] = true ∧ findName ['l'] [(['l'], 0)] = some 0 := by decide

/-- The second line in error, after a line that defines `l` and emits one word. -/
theorem witness_EveryErroneousLineIsReportedOnce :
    let p := pass1 1 0 [] [":l SET A, 1".toList]
    let at1 := fun line : String => (parseLine p.symbols (0 + (p.stmts.map fun x => x.2.length).sum) line.toList).outcome
    at1 " FOO A ; no" = .error .unknownMnemonic ∧ at1 ":1a" = .error .badLabel ∧ at1 ":l" = .error .duplicateLabel ∧
      at1 ":m FOO" = .error .unknownMnemonic ∧ at1 ":m :n" = .error .badOperand ∧
      (⟨2, .duplicateLabel⟩ : Diagnostic) ∈ (pass1 1 0 [] [":l SET A, 1".toList, ":l".toList]).diagnostics := by decide

/-- What each kind of line in error looks like. -/
theorem witness_EveryErroneousLineIsReportedOnce_lines :
    stripLine " FOO A ; no".toList = "FOO A".toList ∧ "FOO A".toList.head? ≠ some ':' ∧
      parseStatement "FOO A".toList = .error .unknownMnemonic ∧ validLabel (firstToken "1a".toList) = false ∧
      validLabel (firstToken "l".toList) = true ∧ (findName ['l'] [(['l'], 0)]).isSome = true ∧
      findName (firstToken "m FOO".toList) [(['l'], 0)] = none ∧ afterToken "m FOO".toList = "FOO".toList ∧
      "FOO".toList.head? ≠ some ':' ∧ parseStatement "FOO".toList = .error .unknownMnemonic ∧
      (afterToken "m :n".toList).head? = some ':' := by decide

theorem witness_AsmFailsOnAnyDiagnostic :
    (1, AsmStmt.instr (.set .pc .nextLit) [.label ['n'] 0]) ∈
        (pass1 1 0 [] (sourceLines "SET PC, n".toList)).stmts ∧
      AsmExtra.label ['n'] 0 ∈ [AsmExtra.label ['n'] 0] ∧
      findName ['n'] (pass1 1 0 [] (sourceLines "SET PC, n".toList)).symbols = none ∧
      (pass1 1 0 [] (sourceLines "FOO".toList)).diagnostics ≠ [] := by decide

end Sys2Proof.Tests
end

section
/-! PROOFS. Program load (10_state.md R25; 70_reset_and_hazards.md R290, R291). -/

namespace Sys2Proof.Machine

/-- All an accepted load can do: the program fits memory, and of the state before only the parameters are left. -/
theorem State.load_eq_next_iff {ir : InitRegs} {im : Memory} {prog : List Word} {s t : State} :
    State.load ir im prog s = .next t ↔
      prog.length ≤ 65536 ∧
        t = { regs := ir.gpr, pc := 0, sp := 0xFFFF, ex := ir.ex, ia := ir.ia,
              mem := Memory.writeFrom im 0 prog, run := .running, params := s.params } := by
  unfold State.load
  split
  next hlong => simp [Nat.not_le.mpr hlong]
  next hfits => simp [Nat.not_lt.mp hfits, eq_comm]

/-- Settles O46: PC and the run state are read off the one state an accepted load can give. -/
theorem loadStartsRunningAtZero : Obligations.LoadStartsRunningAtZero := by
  intro s t ir im prog h
  obtain ⟨-, rfl⟩ := State.load_eq_next_iff.mp h
  exact ⟨rfl, rfl⟩

end Sys2Proof.Machine
end

section
/-! PROOFS. Addresses, SP and PC modulo 65,536 (20_memory.md R45). -/

namespace Sys2Proof.Machine

/-! ### Word arithmetic read in the natural numbers -/

theorem toNat_add_mod_65536 (x y : Word) : (x + y).toNat = (x.toNat + y.toNat) % 65536 := BitVec.toNat_add x y

theorem toNat_add_ofNat_mod_65536 (x : Word) (n : Nat) :
    (x + BitVec.ofNat 16 n).toNat = (x.toNat + n) % 65536 := by
  rw [toNat_add_mod_65536, BitVec.toNat_ofNat, Nat.add_mod_mod]

theorem toNat_add_one_mod_65536 (x : Word) : (x + 1).toNat = (x.toNat + 1) % 65536 := toNat_add_mod_65536 x 1

/-- A decrement, read without truncated subtraction: 65,535 is −1 modulo 65,536. -/
theorem toNat_sub_one_mod_65536 (x : Word) : (x - 1).toNat = (x.toNat + 65535) % 65536 := by
  rw [Nat.add_comm]
  exact BitVec.toNat_sub x 1

/-! ### The operand modes that compute an address or move SP, and the skip -/

theorem eval_indNext (r : Reg) (s : State) :
    eval (.indNext r) s = (.mem (s.regs.get r + s.readMem s.pc), s.advancePc) := rfl

theorem eval_pick (s : State) : eval .pick s = (.mem (s.sp + s.readMem s.pc), s.advancePc) := rfl

theorem eval_push (s : State) : eval .push s = (.mem (s.sp - 1), { s with sp := s.sp - 1 }) := rfl

theorem eval_pop (s : State) : eval .pop s = (.mem s.sp, { s with sp := s.sp + 1 }) := rfl

/-- A decodable word is passed by its length, under either setting of `skipInvalid` (41_cycle.md R114). -/
theorem State.skipNext_of_decodable {s : State} (h : decode s.fetchWord ≠ none) :
    s.skipNext = { s with pc := s.pc + BitVec.ofNat 16 (wordLength s.fetchWord) } := by
  obtain ⟨-, hskip⟩ | ⟨hnone, -⟩ := s.skipNext_cases
  · exact hskip
  · exact absurd hnone h

/-- Settles O9: each address, SP and PC is one sum or decrement of words, so the sum modulo 65,536. -/
theorem addressesWrapModulo65536 : Obligations.AddressesWrapModulo65536 := by
  intro s r x
  refine ⟨?indNext, ?pick, ?push, ?pop, ?nextWord, ?advancePc, ?pushWord, ?skip, ?exampleOfR45⟩
  case indNext =>
    rw [eval_indNext]
    rintro ⟨⟩
    exact toNat_add_mod_65536 _ _
  case pick =>
    rw [eval_pick]
    rintro ⟨⟩
    exact toNat_add_mod_65536 _ _
  case push =>
    rw [eval_push]
    rintro ⟨⟩
    exact ⟨toNat_sub_one_mod_65536 _, rfl⟩
  case pop =>
    rw [eval_pop]
    exact toNat_add_one_mod_65536 _
  case nextWord =>
    rw [State.nextWord_snd, State.advancePc_pc]
    exact toNat_add_one_mod_65536 _
  case advancePc =>
    rw [State.advancePc_pc]
    exact toNat_add_one_mod_65536 _
  case pushWord =>
    rw [State.pushWord_sp]
    exact toNat_sub_one_mod_65536 _
  case skip =>
    intro hdec
    rw [State.skipNext_of_decodable hdec]
    exact toNat_add_ofNat_mod_65536 _ _
  case exampleOfR45 =>
    intro hreg hnext
    rw [eval_indNext, hreg, hnext]
    rfl

end Sys2Proof.Machine
end

section
/-! PROOFS. Words and instructions: decode and encode are inverse, the format, the length (30_encoding.md R63, R64, R77). -/

namespace Sys2Proof

/-! ### Encode, then decode -/

theorem encode_basic {i : Instr} {b : Operand} (hb : i.operandB = some b) :
    encode i = packBasic i.opcode (encodeB b) (encodeA i.operandA) := by
  unfold encode
  rw [hb]

theorem encode_special {i : Instr} (hb : i.operandB = none) :
    encode i = packSpecial i.opcode (encodeA i.operandA) := by
  unfold encode
  rw [hb]

theorem decode_packBasic {op b : BitVec 5} (a : BitVec 6) (h : op ≠ 0) :
    decode (packBasic op b a) = decodeBasic op (decodeB b) (decodeA a) := by
  unfold decode
  rw [opField_packBasic, bField_packBasic, aField_packBasic, if_neg h]

theorem decode_packSpecial (op : BitVec 5) (a : BitVec 6) :
    decode (packSpecial op a) = decodeSpecial op (decodeA a) := by
  unfold decode
  rw [opField_packSpecial, bField_packSpecial, aField_packSpecial, if_pos rfl]

/-- No basic opcode is 0, so no basic word reads as special (30_encoding.md R63, R70). -/
theorem Instr.opcode_ne_zero_of_basic {i : Instr} {b : Operand} (hb : i.operandB = some b) : i.opcode ≠ 0 := by
  cases i <;> cases hb <;> simp [Instr.opcode]

theorem decodeBasic_opcode {i : Instr} {b : Operand} (hb : i.operandB = some b) :
    decodeBasic i.opcode b i.operandA = some i := by
  cases i <;> cases hb <;> rfl

theorem decodeSpecial_opcode {i : Instr} (hb : i.operandB = none) : decodeSpecial i.opcode i.operandA = some i := by
  cases i <;> cases hb <;> rfl

theorem Instr.wf_basic {i : Instr} {b : Operand} (hb : i.operandB = some b) :
    i.wf = true ↔ i.operandA.wfA = true ∧ b.wfB = true := by
  simp [Instr.wf, hb]

theorem Instr.wf_special {i : Instr} (hb : i.operandB = none) : i.wf = true ↔ i.operandA.wfA = true := by
  simp [Instr.wf, hb]

/-- The first half of R77. -/
theorem decode_encode {i : Instr} (h : i.wf = true) : decode (encode i) = some i := by
  cases hb : i.operandB with
  | none =>
    have hA := (Instr.wf_special hb).mp h
    rw [encode_special hb, decode_packSpecial, decodeA_encodeA hA, decodeSpecial_opcode hb]
  | some b =>
    obtain ⟨hA, hB⟩ := (Instr.wf_basic hb).mp h
    rw [encode_basic hb, decode_packBasic _ (Instr.opcode_ne_zero_of_basic hb), decodeA_encodeA hA, decodeB_encodeB hB,
      decodeBasic_opcode hb]

/-! ### Decode, then encode -/

theorem wf_of_decode {w : Word} {i : Instr} (h : decode w = some i) : i.wf = true := by
  obtain ⟨-, hb, -, ha⟩ | ⟨-, hb, -, ha⟩ := decode_cases h
  · rw [Instr.wf_special hb, ha]
    exact wfA_decodeA _
  · rw [Instr.wf_basic hb, ha]
    exact ⟨wfA_decodeA _, wfB_decodeB _⟩

/-- The second half of R77: a word is its fields, and each field is that of the operand or opcode decoded from it. -/
theorem encode_of_decode {w : Word} {i : Instr} (h : decode w = some i) : encode i = w := by
  obtain ⟨h0, hb, hop, ha⟩ | ⟨-, hb, hop, ha⟩ := decode_cases h
  · rw [encode_special hb, hop, ha, encodeA_decodeA, packSpecial_eq, ← h0, packBasic_fields]
  · rw [encode_basic hb, hop, ha, encodeA_decodeA, encodeB_decodeB, packBasic_fields]

/-- Settles O2: the fields of a packed word are what was packed, and operand fields and modes are inverse. -/
theorem decodeAndEncodeAreInverse : Obligations.DecodeAndEncodeAreInverse :=
  ⟨fun _ h => decode_encode h, fun _ _ h => ⟨wf_of_decode h, encode_of_decode h⟩⟩

/-! ### The fields as numbers -/

theorem opField_eq_zero_iff (w : Word) : opField w = 0 ↔ w.toNat % 32 = 0 := by
  rw [← opField_toNat]
  exact BitVec.toNat_inj.symm

theorem bField_eq_ofNat (w : Word) : bField w = BitVec.ofNat 5 (w.toNat / 32 % 32) := by
  rw [← bField_toNat, BitVec.ofNat_toNat, BitVec.setWidth_eq]

theorem aField_eq_ofNat (w : Word) : aField w = BitVec.ofNat 6 (w.toNat / 1024) := by
  rw [← aField_toNat, BitVec.ofNat_toNat, BitVec.setWidth_eq]

/-- Settles O3: the decoder branches on bits 4:0, and each branch fixes the opcode and the operands by field. -/
theorem lowFiveBitsTellTheFormat : Obligations.LowFiveBitsTellTheFormat := by
  intro w i h
  rw [ne_eq, ← opField_eq_zero_iff, ← aField_eq_ofNat, ← bField_eq_ofNat, ← bField_toNat, ← opField_toNat]
  obtain ⟨h0, hb, hop, ha⟩ | ⟨h0, hb, hop, ha⟩ := decode_cases h
  · exact ⟨fun _ => ⟨hb, congrArg BitVec.toNat hop, ha⟩, fun hne => absurd h0 hne⟩
  · exact ⟨fun hz => absurd hz h0, fun _ => ⟨hb, congrArg BitVec.toNat hop, ha⟩⟩

/-! ### The length -/

/-- The formula of R64 on a word that decodes is the length of the instruction, which is the one the word encodes. -/
theorem wordLength_of_decode {w : Word} {i : Instr} (h : decode w = some i) : wordLength w = i.length := by
  rw [← encode_of_decode h]
  cases hb : i.operandB with
  | none => exact wordLength_encode_special hb (wf_of_decode h)
  | some b => exact wordLength_encode_basic hb (Instr.opcode_ne_zero_of_basic hb) (wf_of_decode h)

theorem fieldExtra_le_one (f : Nat) : fieldExtra f ≤ 1 := by
  unfold fieldExtra
  split <;> decide

/-- Decodable or not, a word stands for 1 to 3 words. -/
theorem wordLength_bounds (w : Word) : 1 ≤ wordLength w ∧ wordLength w ≤ 3 := by
  have hA := fieldExtra_le_one (aField w).toNat
  have hB := fieldExtra_le_one (bField w).toNat
  unfold wordLength
  split <;> omega

/-- Settles O5: the word encodes the instruction it decodes to, so their lengths agree; each operand adds at most 1. -/
theorem lengthIsKnownFromTheOpcodeWord : Obligations.LengthIsKnownFromTheOpcodeWord := by
  intro w i h
  refine ⟨?_, wordLength_bounds w⟩
  rw [wordLength_of_decode h, Instr.length]
  cases i.operandB <;> rfl

end Sys2Proof
end

section
/-! PROOFS. Operand fields, operand evaluation and locations (40_operands.md R86 to R94, R96 to R98, R100 to R102). -/

namespace Sys2Proof

/-! ### The register fields of both positions (30_encoding.md R66) -/

theorem Reg.index_ofIndex : ∀ {n : Nat}, n < 8 → (Reg.ofIndex n).index = n := by decide

theorem decodeB_registerFields : ∀ {n : Nat}, n < 8 →
    decodeB (BitVec.ofNat 5 n) = .reg (Reg.ofIndex n) ∧
    decodeB (BitVec.ofNat 5 (0x08 + n)) = .ind (Reg.ofIndex n) ∧
    decodeB (BitVec.ofNat 5 (0x10 + n)) = .indNext (Reg.ofIndex n) := by decide

theorem decodeA_registerFields : ∀ {n : Nat}, n < 8 →
    decodeA (BitVec.ofNat 6 n) = .reg (Reg.ofIndex n) ∧
    decodeA (BitVec.ofNat 6 (0x08 + n)) = .ind (Reg.ofIndex n) ∧
    decodeA (BitVec.ofNat 6 (0x10 + n)) = .indNext (Reg.ofIndex n) := by decide

end Sys2Proof

namespace Sys2Proof.Machine

/-! ### The modes that name a register or take the next word -/

theorem eval_reg (r : Reg) (s : State) : eval (.reg r) s = (.reg r, s) := rfl

theorem eval_ind (r : Reg) (s : State) : eval (.ind r) s = (.mem (s.regs.get r), s) := rfl

theorem eval_nextInd (s : State) : eval .nextInd s = (.mem (s.readMem s.pc), s.advancePc) := rfl

theorem eval_nextLit (s : State) : eval .nextLit s = (.lit (s.readMem s.pc), s.advancePc) := rfl

/-- Settles O6: both decoders agree on the register fields, and each mode has its evaluation lemma. -/
theorem registerAndNextWordModes : Obligations.RegisterAndNextWordModes := by
  refine ⟨fun n hn => ?_, rfl, rfl, rfl, rfl, fun s r => ?_⟩
  · obtain ⟨hregB, hindB, hindNextB⟩ := decodeB_registerFields hn
    obtain ⟨hregA, hindA, hindNextA⟩ := decodeA_registerFields hn
    exact ⟨hregB, hregA, hindB, hindA, hindNextB, hindNextA, Reg.index_ofIndex hn⟩
  · exact ⟨rfl, eval_reg r s, eval_ind r s, eval_indNext r s, eval_nextInd s, eval_nextLit s⟩

/-! ### The modes on SP and EX -/

theorem eval_peek (s : State) : eval .peek s = (.mem s.sp, s) := rfl

theorem eval_spReg (s : State) : eval .sp s = (.sp, s) := rfl

theorem eval_exReg (s : State) : eval .ex s = (.ex, s) := rfl

/-- Settles O7: the ten fields decode by evaluation, and each mode has its evaluation lemma. -/
theorem stackAndSpecialModes : Obligations.StackAndSpecialModes := by
  refine ⟨rfl, rfl, rfl, rfl, rfl, rfl, rfl, rfl, rfl, rfl, fun s => ?_⟩
  exact ⟨eval_pop s, eval_push s, eval_peek s, eval_pick s, eval_spReg s, eval_exReg s⟩

/-! ### The order of evaluation (R102) -/

theorem resolveBasic_eq (b a : Operand) (s : State) :
    resolveBasic b a s =
      { b := (eval b s.advancePc).1
        a := (eval a (eval b s.advancePc).2).1
        st := (eval a (eval b s.advancePc).2).2 } := rfl

theorem resolveSpecial_eq (a : Operand) (s : State) : resolveSpecial a s = eval a s.advancePc := rfl

/-- Settles O11: the three parts of `resolveBasic_eq`, and `resolveSpecial_eq`. -/
theorem bIsEvaluatedBeforeA : Obligations.BIsEvaluatedBeforeA := by
  intro b a s
  rw [resolveBasic_eq, resolveSpecial_eq]
  exact ⟨rfl, rfl, rfl, rfl⟩

/-- PC passes the opcode word and the extra words of both operands. -/
theorem resolveBasic_pc (b a : Operand) (s : State) :
    (resolveBasic b a s).st.pc = s.pc + BitVec.ofNat 16 (1 + b.extra + a.extra) := by
  simp [resolveBasic_eq, eval_pc, BitVec.ofNat_add, BitVec.add_assoc]

/-! ### Locations (R100, R101) -/

/-- What is written to a location other than a literal is read back there. -/
theorem State.readLoc_writeLoc (s : State) {loc : Location} (v : Word) (hloc : ∀ u, loc ≠ .lit u) :
    (s.writeLoc loc v).readLoc loc = v := by
  obtain ⟨hstored, hex⟩ := s.writeLoc_stored loc v
  cases loc with
  | reg r => exact (hstored.regs r).trans (if_pos rfl)
  | sp => exact hstored.sp
  | pc => exact hstored.pc
  | ex => exact hex
  | mem x => exact (hstored.mem x).trans (if_pos rfl)
  | lit u => exact absurd rfl (hloc u)

theorem State.writeLoc_lit (s : State) (u v : Word) : s.writeLoc (.lit u) v = s := rfl

theorem exec_set (b a : Operand) (s : State) :
    exec (.set b a) s =
      .next ((resolveBasic b a s).st.writeLoc (resolveBasic b a s).b (resolveBasic b a s).av) := rfl

/-- The location of a next-word literal discards the write, so only the operands' effects are left. -/
theorem exec_set_nextLit (a : Operand) (s : State) :
    exec (.set .nextLit a) s = .next (resolveBasic .nextLit a s).st := by
  have hlit : (resolveBasic .nextLit a s).b = .lit (s.readMem (s.pc + 1)) := by
    rw [resolveBasic_eq, eval_nextLit, State.advancePc_readMem, State.advancePc_pc]
  rw [exec_set, hlit, State.writeLoc_lit]

/-- Settles O12: the frame is `State.writeLoc_stored`, and SET to a next-word literal ends in the state its operands leave. -/
theorem locationsReadBackWhatIsWritten : Obligations.LocationsReadBackWhatIsWritten := by
  intro s loc v
  refine ⟨fun _ => rfl, rfl, rfl, rfl, fun _ => rfl, fun _ => rfl, ?readBack, ?frame, ?literal, ?setLiteral⟩
  case readBack => exact s.readLoc_writeLoc v
  case frame => exact s.writeLoc_stored loc v
  case literal => exact fun u => s.writeLoc_lit u v
  case setLiteral =>
    intro a
    exact ⟨_, exec_set_nextLit a s, resolveBasic_pc .nextLit a s, resolveBasic_regs .nextLit a s,
      resolveBasic_mem .nextLit a s⟩

end Sys2Proof.Machine
end

section
/-! PROOFS. The symbol table of pass 1: a first definition of a label stands (47_assembler.md R225). -/

namespace Sys2Proof.Machine

/-! ### What one line does to the table -/

/-- What a line that begins with a colon does: its first token is a bad label, a duplicate, or a new entry. -/
theorem parseLine_label (symbols : Symbols) (off : Nat) {line rest : Text} (h : stripLine line = ':' :: rest) :
    parseLine symbols off line =
      if validLabel (firstToken rest) = false then ⟨symbols, .error .badLabel⟩
      else if (findName (firstToken rest) symbols).isSome then ⟨symbols, .error .duplicateLabel⟩
      else ⟨symbols ++ [(firstToken rest, off)], afterLabel (afterToken rest)⟩ := by
  unfold parseLine
  rw [h]
  rfl

theorem parseLine_duplicateLabel {symbols : Symbols} {line rest : Text} {v : Nat} (off : Nat)
    (h : stripLine line = ':' :: rest) (hvalid : validLabel (firstToken rest) = true)
    (hdef : findName (firstToken rest) symbols = some v) :
    parseLine symbols off line = ⟨symbols, .error .duplicateLabel⟩ := by
  rw [parseLine_label symbols off h, if_neg (by simp [hvalid]), if_pos (by simp [hdef])]

/-- A line keeps the table or adds one entry at its end. -/
theorem prefix_parseLine_symbols (symbols : Symbols) (off : Nat) (line : Text) :
    symbols <+: (parseLine symbols off line).symbols := by
  unfold parseLine
  split
  next => exact List.prefix_rfl
  next c cs _ =>
    dsimp only
    split_ifs with hcolon hbad hdup
    · exact List.prefix_rfl
    · exact List.prefix_rfl
    · exact List.prefix_append _ _
    · exact List.prefix_rfl

/-! ### What all of pass 1 does to it -/

/-- Pass 1 only adds entries at the end of the table it begins with. -/
theorem prefix_pass1_symbols (lines : List Text) (n off : Nat) (symbols : Symbols) :
    symbols <+: (pass1 n off symbols lines).symbols := by
  induction lines generalizing n off symbols with
  | nil => exact List.prefix_rfl
  | cons line lines ih =>
    have hline := prefix_parseLine_symbols symbols off line
    obtain ⟨e, -, hcons⟩ | ⟨-, hcons⟩ | ⟨st, -, hcons⟩ := pass1_cons n off symbols line lines
    all_goals
      rw [hcons]
      exact hline.trans (ih _ _ _)

/-- A lookup finds the first entry, so entries added at the end do not change what it found. -/
theorem findName_of_prefix {α : Type} {name : Text} {v : α} {xs ys : List (Text × α)} (hprefix : xs <+: ys)
    (h : findName name xs = some v) : findName name ys = some v := by
  obtain ⟨zs, rfl⟩ := hprefix
  induction xs with
  | nil => cases h
  | cons x xs ih =>
    rw [List.cons_append, findName]
    rw [findName] at h
    split_ifs at h ⊢
    · exact h
    · exact ih h

/-- Settles O53: the duplicate check comes before the new entry, and pass 1 adds entries at the end of the table only. -/
theorem firstLabelDefinitionStands : Obligations.FirstLabelDefinitionStands := by
  refine ⟨?duplicate, ?stands⟩
  case duplicate =>
    rintro symbols off v line _ rest hline rfl hvalid hdef
    exact parseLine_duplicateLabel off hline hvalid hdef
  case stands =>
    intro lines n off v symbols name hdef
    exact findName_of_prefix (prefix_pass1_symbols lines n off symbols) hdef

end Sys2Proof.Machine
end

section
/-! PROOFS. What an instruction can do: its operands are evaluated, and then one of eight effects follows. Every
statement about all 36 instructions is read off these effects (41_cycle.md R112 to R118). -/

namespace Sys2Proof.Machine

/-! ### The state after operand evaluation, for both formats -/

/-- The state in which the opcode executes: PC past the instruction, the effects of PUSH and POP done. -/
def afterOperands (i : Instr) (s : State) : State :=
  match i.operandB with
  | some b => (resolveBasic b i.operandA s).st
  | none => (resolveSpecial i.operandA s).2

theorem afterOperands_basic {i : Instr} {b : Operand} (hb : i.operandB = some b) (s : State) :
    afterOperands i s = (resolveBasic b i.operandA s).st := by
  unfold afterOperands
  rw [hb]

theorem afterOperands_special {i : Instr} (hb : i.operandB = none) (s : State) :
    afterOperands i s = (resolveSpecial i.operandA s).2 := by
  unfold afterOperands
  rw [hb]

/-- PC passes the opcode word and the operand's extra word. -/
theorem resolveSpecial_pc (a : Operand) (s : State) :
    (resolveSpecial a s).2.pc = s.pc + BitVec.ofNat 16 (1 + a.extra) := by
  simp [resolveSpecial_eq, eval_pc, BitVec.ofNat_add, BitVec.add_assoc]

/-- SP moves up by a POP and down by a PUSH. -/
theorem eval_sp_add (o : Operand) (s : State) :
    (eval o s).2.sp = s.sp + (if o = .pop then 1 else 0) - (if o = .push then 1 else 0) := by
  rw [eval_sp]
  cases o <;> simp

theorem resolveBasic_sp (b a : Operand) (s : State) :
    (resolveBasic b a s).st.sp =
      s.sp + (if b = .pop then 1 else 0) + (if a = .pop then 1 else 0) - (if b = .push then 1 else 0)
        - (if a = .push then 1 else 0) := by
  rw [resolveBasic_eq, eval_sp_add, eval_sp_add, State.advancePc_sp, sub_add_eq_add_sub]

theorem resolveSpecial_sp (a : Operand) (s : State) :
    (resolveSpecial a s).2.sp = s.sp + (if a = .pop then 1 else 0) - (if a = .push then 1 else 0) := by
  rw [resolveSpecial_eq, eval_sp_add, State.advancePc_sp]

/-- What the resolvers of both formats leave alone. -/
theorem resolveBasic_sameButPcSp (b a : Operand) (s : State) : SameButPcSp s (resolveBasic b a s).st :=
  ⟨resolveBasic_regs b a s, resolveBasic_ex b a s, resolveBasic_ia b a s, resolveBasic_mem b a s,
    resolveBasic_run b a s, resolveBasic_params b a s⟩

theorem resolveSpecial_sameButPcSp (a : Operand) (s : State) : SameButPcSp s (resolveSpecial a s).2 :=
  ⟨resolveSpecial_regs a s, resolveSpecial_ex a s, resolveSpecial_ia a s, resolveSpecial_mem a s,
    resolveSpecial_run a s, resolveSpecial_params a s⟩

theorem afterOperands_sameButPcSp (i : Instr) (s : State) : SameButPcSp s (afterOperands i s) := by
  cases hb : i.operandB with
  | some b => exact afterOperands_basic hb s ▸ resolveBasic_sameButPcSp b i.operandA s
  | none => exact afterOperands_special hb s ▸ resolveSpecial_sameButPcSp i.operandA s

section AfterOperands
variable (i : Instr) (s : State)

@[simp] theorem afterOperands_regs : (afterOperands i s).regs = s.regs := (afterOperands_sameButPcSp i s).regs
@[simp] theorem afterOperands_ex : (afterOperands i s).ex = s.ex := (afterOperands_sameButPcSp i s).ex
@[simp] theorem afterOperands_ia : (afterOperands i s).ia = s.ia := (afterOperands_sameButPcSp i s).ia
@[simp] theorem afterOperands_mem : (afterOperands i s).mem = s.mem := (afterOperands_sameButPcSp i s).mem
@[simp] theorem afterOperands_run : (afterOperands i s).run = s.run := (afterOperands_sameButPcSp i s).run
@[simp] theorem afterOperands_params : (afterOperands i s).params = s.params := (afterOperands_sameButPcSp i s).params

@[simp] theorem afterOperands_readMem (x : Word) : (afterOperands i s).readMem x = s.readMem x := by
  unfold State.readMem
  rw [afterOperands_mem]

theorem afterOperands_pc : (afterOperands i s).pc = s.pc + BitVec.ofNat 16 i.length := by
  cases hb : i.operandB with
  | some b =>
    rw [afterOperands_basic hb, resolveBasic_pc, Instr.length, hb, Nat.add_right_comm]
    rfl
  | none =>
    rw [afterOperands_special hb, resolveSpecial_pc, Instr.length, hb]
    rfl

end AfterOperands

/-! ### The effects -/

/-- I and J move by `d`, the second half of STI and STD (42_move.md R132, R133). -/
def State.moveIJ (s : State) (d : Word) : State :=
  { s with regs := { s.regs with i := s.regs.i + d, j := s.regs.j + d } }

theorem storeAndMove_eq (d : Word) (b a : Operand) (s : State) :
    storeAndMove d b a s =
      .next (((resolveBasic b a s).st.writeLoc (resolveBasic b a s).b (resolveBasic b a s).av).moveIJ d) := rfl

theorem State.moveIJ_get_of_ne (s : State) (d : Word) {q : Reg} (hi : q ≠ .i) (hj : q ≠ .j) :
    (s.moveIJ d).regs.get q = s.regs.get q := by
  cases q with
  | i => exact absurd rfl hi
  | j => exact absurd rfl hj
  | a | b | c | x | y | z => rfl

/-- The faults an instruction itself can take, each with the opcode numbers it records (60_exceptions.md R272). -/
inductive FaultCause (p : Params) : FaultReason → Word → Prop
  | division {w : Word} (hp : p.signedDivOverflow = .fault) (hw : w = 0x07 ∨ w = 0x09) : FaultCause p .arithFault w
  | shift {w : Word} (hp : p.wideShift = .fault) (hw : w = 0x0D ∨ w = 0x0E ∨ w = 0x0F) : FaultCause p .arithFault w
  | stub {w : Word} (hp : p.stubPolicy = .refuse)
      (hw : w = 0x08 ∨ w = 0x0B ∨ w = 0x0C ∨ w = 0x10 ∨ w = 0x11 ∨ w = 0x12) : FaultCause p .stub w

/-- Everything an instruction can do after its operands are evaluated. -/
inductive Effect (i : Instr) (s : State) : State → Prop
  | store (loc : Location) (v : Word) (htarget : storeTarget i s = some loc) :
      Effect i s ((afterOperands i s).writeLoc loc v)
  | storeEx (loc : Location) (r : ValueEx) (htarget : storeTarget i s = some loc) (hex : writesEx i s) :
      Effect i s ((afterOperands i s).writeWithEx loc r)
  | storeMove (loc : Location) (v d : Word) (htarget : storeTarget i s = some loc) (hmoves : movesIJ i) :
      Effect i s (((afterOperands i s).writeLoc loc v).moveIJ d)
  | call (a : Operand) (target : Word) (hi : i = .jsr a) :
      Effect i s { (afterOperands i s).pushWord (afterOperands i s).pc with pc := target }
  | setIa (a : Operand) (v : Word) (hi : i = .ias a) : Effect i s { afterOperands i s with ia := v }
  | evaluated : Effect i s (afterOperands i s)
  | skip (hcond : isConditional i) : Effect i s (afterOperands i s).skipNext
  | fault (reason : FaultReason) (w : Word) (hcause : FaultCause s.params reason w) :
      Effect i s ((afterOperands i s).takeFault reason s.pc w)

/-! ### The shared shapes in these words -/

section Conditionals
variable (b a : Operand) (s : State)

theorem exec_ifb : exec (.ifb b a) s = conditional (fun bv av => (bv &&& av) != 0) b a s := rfl
theorem exec_ifc : exec (.ifc b a) s = conditional (fun bv av => (bv &&& av) == 0) b a s := rfl
theorem exec_ife : exec (.ife b a) s = conditional (fun bv av => bv == av) b a s := rfl
theorem exec_ifn : exec (.ifn b a) s = conditional (fun bv av => bv != av) b a s := rfl
theorem exec_ifg : exec (.ifg b a) s = conditional (fun bv av => decide (bv.toNat > av.toNat)) b a s := rfl
theorem exec_ifa : exec (.ifa b a) s = conditional (fun bv av => decide (s16 bv > s16 av)) b a s := rfl
theorem exec_ifl : exec (.ifl b a) s = conditional (fun bv av => decide (bv.toNat < av.toNat)) b a s := rfl
theorem exec_ifu : exec (.ifu b a) s = conditional (fun bv av => decide (s16 bv < s16 av)) b a s := rfl

end Conditionals

theorem effect_of_conditional {i : Instr} {b a : Operand} {s : State} {test : Word → Word → Bool}
    (hexec : exec i s = conditional test b a s) (hst : afterOperands i s = (resolveBasic b a s).st)
    (hcond : isConditional i) : ∃ t, exec i s = .next t ∧ Effect i s t := by
  rw [hexec, conditional, ← hst]
  split
  · exact ⟨_, rfl, .evaluated⟩
  · exact ⟨_, rfl, .skip hcond⟩

theorem effect_of_storeShift {i : Instr} {b a : Operand} {s : State} {opcode : Word} {f : Word → Word → ValueEx}
    (hexec : exec i s = storeShift opcode f b a s) (hst : afterOperands i s = (resolveBasic b a s).st)
    (htarget : storeTarget i s = some (resolveBasic b a s).b) (hex : writesEx i s)
    (hop : opcode = 0x0D ∨ opcode = 0x0E ∨ opcode = 0x0F) : ∃ t, exec i s = .next t ∧ Effect i s t := by
  rw [hexec]
  obtain ⟨hp, -, heq⟩ | ⟨-, heq⟩ := storeShift_cases opcode f b a s
  · rw [heq, ← hst]
    exact ⟨_, rfl, .fault _ _ (.shift hp hop)⟩
  · rw [heq, storeResultEx, ← hst]
    exact ⟨_, rfl, .storeEx _ _ htarget hex⟩

theorem effect_of_remainderResult {i : Instr} {b a : Operand} {s : State} (f : Word → Word → Word)
    (hst : afterOperands i s = (resolveBasic b a s).st) (htarget : storeTarget i s = some (resolveBasic b a s).b)
    (hex : (resolveBasic b a s).av = 0 → writesEx i s) : Effect i s (remainderResult f (resolveBasic b a s)) := by
  obtain ⟨h0, -, heq⟩ | ⟨-, -, heq⟩ | ⟨-, heq⟩ := remainderResult_cases f (resolveBasic b a s)
  · rw [heq, ← hst]
    exact .storeEx _ _ htarget (hex h0)
  all_goals
    rw [heq, ← hst]
    exact .store _ _ htarget

theorem effect_of_orDivFault {i : Instr} {b a : Operand} {s done : State} {opcode : Word}
    (hexec : exec i s = orDivFault opcode s.pc (resolveBasic b a s) done)
    (hst : afterOperands i s = (resolveBasic b a s).st) (hop : opcode = 0x07 ∨ opcode = 0x09)
    (hdone : Effect i s done) : ∃ t, exec i s = .next t ∧ Effect i s t := by
  rw [hexec]
  obtain ⟨hp, -, heq⟩ | ⟨-, heq⟩ := orDivFault_cases opcode s.pc (resolveBasic b a s) done
  · rw [heq, ← hst]
    rw [resolveBasic_params] at hp
    exact ⟨_, rfl, .fault _ _ (.division hp hop)⟩
  · exact ⟨_, heq, hdone⟩

theorem effect_of_execStub {i : Instr} {a : Operand} {s : State} {opcode : Word}
    (hexec : exec i s = execStub opcode a s) (hst : afterOperands i s = (resolveSpecial a s).2)
    (hop : opcode = 0x08 ∨ opcode = 0x0B ∨ opcode = 0x0C ∨ opcode = 0x10 ∨ opcode = 0x11 ∨ opcode = 0x12) :
    ∃ t, exec i s = .next t ∧ Effect i s t := by
  rw [hexec]
  obtain ⟨-, heq⟩ | ⟨hp, heq⟩ := execStub_cases opcode a s
  · rw [heq, ← hst]
    exact ⟨_, rfl, .evaluated⟩
  · rw [heq, ← hst]
    exact ⟨_, rfl, .fault _ _ (.stub hp hop)⟩

/-! ### All 36 instructions -/

/-- Every instruction has a next state, and an effect that gives it. -/
theorem exec_effect (i : Instr) (s : State) : ∃ t, exec i s = .next t ∧ Effect i s t := by
  cases i with
  | set b a | and b a | bor b a | xor b a => exact ⟨_, rfl, .store _ _ rfl⟩
  | add b a | sub b a | mul b a | mli b a | div b a | adx b a | sbx b a => exact ⟨_, rfl, .storeEx _ _ rfl trivial⟩
  | dvi b a => exact effect_of_orDivFault rfl rfl (.inl rfl) (.storeEx _ _ rfl trivial)
  | mod b a => exact ⟨_, rfl, effect_of_remainderResult modValue rfl rfl id⟩
  | mdi b a => exact effect_of_orDivFault rfl rfl (.inr rfl) (effect_of_remainderResult mdiValue rfl rfl id)
  | shr b a => exact effect_of_storeShift rfl rfl rfl trivial (.inl rfl)
  | asr b a => exact effect_of_storeShift rfl rfl rfl trivial (.inr (.inl rfl))
  | shl b a => exact effect_of_storeShift rfl rfl rfl trivial (.inr (.inr rfl))
  | ifb b a => exact effect_of_conditional (exec_ifb b a s) rfl trivial
  | ifc b a => exact effect_of_conditional (exec_ifc b a s) rfl trivial
  | ife b a => exact effect_of_conditional (exec_ife b a s) rfl trivial
  | ifn b a => exact effect_of_conditional (exec_ifn b a s) rfl trivial
  | ifg b a => exact effect_of_conditional (exec_ifg b a s) rfl trivial
  | ifa b a => exact effect_of_conditional (exec_ifa b a s) rfl trivial
  | ifl b a => exact effect_of_conditional (exec_ifl b a s) rfl trivial
  | ifu b a => exact effect_of_conditional (exec_ifu b a s) rfl trivial
  | sti b a | std b a => exact ⟨_, rfl, .storeMove _ _ _ rfl trivial⟩
  | jsr a => exact ⟨_, rfl, .call a _ rfl⟩
  | iag a => exact ⟨_, rfl, .store _ _ rfl⟩
  | ias a => exact ⟨_, rfl, .setIa a _ rfl⟩
  | int a | rfi a | iaq a | hwn a | hwq a | hwi a => exact effect_of_execStub rfl rfl (by decide)

theorem effect_of_exec {i : Instr} {s t : State} (h : exec i s = .next t) : Effect i s t := by
  obtain ⟨t', ht', heffect⟩ := exec_effect i s
  rw [h, Host.Outcome.next.injEq] at ht'
  exact ht' ▸ heffect

/-! ### One tick -/

theorem step_of_not_running {s : State} (h : s.run ≠ .running) : step s = .next s := by
  unfold step
  cases hrun : s.run with
  | running => exact absurd hrun h
  | finished | faulted reason pc w => rfl

theorem step_of_undecodable {s : State} (hrun : s.run = .running) (hdec : decode s.fetchWord = none) :
    step s = .next (s.takeFault .decodeError s.pc s.fetchWord) := by
  unfold step
  simp only [hrun, hdec]

theorem step_of_exec {s t : State} {i : Instr} (hrun : s.run = .running) (hdec : decode s.fetchWord = some i)
    (hexec : exec i s = .next t) : step s = .next (t.finishTick s.pc) := by
  unfold step
  simp only [hrun, hdec, hexec, finishOutcome]

/-- Everything a tick can do. -/
theorem step_cases (s : State) :
    (s.run ≠ .running ∧ step s = .next s) ∨
    (s.run = .running ∧ decode s.fetchWord = none ∧
      step s = .next (s.takeFault .decodeError s.pc s.fetchWord)) ∨
    ∃ i t, s.run = .running ∧ decode s.fetchWord = some i ∧ exec i s = .next t ∧ Effect i s t ∧
      step s = .next (t.finishTick s.pc) := by
  by_cases hrun : s.run = .running
  · cases hdec : decode s.fetchWord with
    | none => exact .inr (.inl ⟨hrun, rfl, step_of_undecodable hrun hdec⟩)
    | some i =>
      obtain ⟨t, hexec, heffect⟩ := exec_effect i s
      exact .inr (.inr ⟨i, t, hrun, rfl, hexec, heffect, step_of_exec hrun hdec hexec⟩)
  · exact .inl ⟨hrun, step_of_not_running hrun⟩

end Sys2Proof.Machine
end

section
/-! PROOFS. The invariant of a run: every tick, every host write to a machine that is not Faulted, and every load keep
it (60_exceptions.md R272; 20_memory.md R49; 70_reset_and_hazards.md R290). -/

namespace Sys2Proof.Machine

/-! ### What every effect keeps -/

theorem State.writeLoc_params (s : State) (loc : Location) (v : Word) : (s.writeLoc loc v).params = s.params :=
  (s.writeLoc_stored loc v).1.params

theorem State.writeWithEx_params (s : State) (loc : Location) (r : ValueEx) :
    (s.writeWithEx loc r).params = s.params :=
  (s.writeWithEx_stored loc r).1.params

theorem State.writeLoc_run (s : State) (loc : Location) (v : Word) : (s.writeLoc loc v).run = s.run :=
  (s.writeLoc_stored loc v).1.run

theorem State.writeWithEx_run (s : State) (loc : Location) (r : ValueEx) : (s.writeWithEx loc r).run = s.run :=
  (s.writeWithEx_stored loc r).1.run

/-- A skip moves PC or takes a fault, and nothing else. -/
theorem State.skipNext_eq (s : State) : s.skipNext = { s with pc := s.skipNext.pc, run := s.skipNext.run } := by
  obtain ⟨-, heq⟩ | ⟨-, -, heq⟩ := s.skipNext_cases
  · rw [heq]
  · rw [heq]
    rfl

theorem Effect.params {i : Instr} {s t : State} (h : Effect i s t) : t.params = s.params := by
  rw [← afterOperands_params i s]
  cases h with
  | store loc v _ | storeMove loc v _ _ _ => exact State.writeLoc_params _ loc v
  | storeEx loc r _ _ => exact State.writeWithEx_params _ loc r
  | skip _ => rw [State.skipNext_eq]
  | call _ _ _ | setIa _ _ _ | evaluated | fault _ _ _ => rfl

theorem Effect.wf_mem {i : Instr} {s t : State} (h : Effect i s t) (hmem : Memory.wf s.mem = true) :
    Memory.wf t.mem = true := by
  rw [← afterOperands_mem i s] at hmem
  cases h with
  | store loc v _ | storeMove loc v _ _ _ => exact State.wf_writeLoc hmem loc v
  | storeEx loc r _ _ => exact State.wf_writeWithEx hmem loc r
  | call _ _ _ => exact Memory.wf_write hmem _ _
  | skip _ => rwa [State.skipNext_eq]
  | setIa _ _ _ | evaluated | fault _ _ _ => exact hmem

/-- The run state stays, or the instruction takes one of its own faults, or an IFx skips to a word that does not
decode. -/
theorem Effect.run_cases {i : Instr} {s t : State} (h : Effect i s t) :
    t.run = s.run ∨
    (∃ reason w, FaultCause s.params reason w ∧ t.run = .faulted reason s.pc w) ∨
    (isConditional i ∧ decode (t.readMem t.pc) = none ∧ t.pc = (afterOperands i s).pc ∧
      t.run = .faulted .decodeError t.pc (t.readMem t.pc)) := by
  rw [← afterOperands_run i s]
  cases h with
  | store loc v _ | storeMove loc v _ _ _ => exact .inl (State.writeLoc_run _ loc v)
  | storeEx loc r _ _ => exact .inl (State.writeWithEx_run _ loc r)
  | call _ _ _ | setIa _ _ _ | evaluated => exact .inl rfl
  | fault reason w hcause => exact .inr (.inl ⟨reason, w, hcause, rfl⟩)
  | skip hcond =>
    obtain ⟨-, heq⟩ | ⟨hdec, -, heq⟩ := (afterOperands i s).skipNext_cases
    · rw [heq]
      exact .inl rfl
    · rw [heq]
      exact .inr (.inr ⟨hcond, hdec, rfl, rfl⟩)

/-! ### The invariant, by run state -/

theorem Inv.of_running {s : State} (hmem : Memory.wf s.mem = true) (hrun : s.run = .running) : Inv s := by
  refine ⟨hmem, ?_, ?_, ?_, ?_⟩ <;> simp [hrun]

theorem Inv.of_finished {s : State} (hmem : Memory.wf s.mem = true) (hhalt : s.params.haltDetect = true)
    (hrun : s.run = .finished) : Inv s := by
  refine ⟨hmem, fun _ => hhalt, ?_, ?_, ?_⟩ <;> simp [hrun]

theorem Inv.of_faultCause {s : State} {reason : FaultReason} {pc w : Word} (hmem : Memory.wf s.mem = true)
    (hcause : FaultCause s.params reason w) (hrun : s.run = .faulted reason pc w) : Inv s := by
  cases hcause with
  | division hp hw =>
    refine ⟨hmem, by simp [hrun], by simp [hrun], ?_, by simp [hrun]⟩
    rintro pc' w' h
    cases hrun.symm.trans h
    exact .inl ⟨hp, hw⟩
  | shift hp hw =>
    refine ⟨hmem, by simp [hrun], by simp [hrun], ?_, by simp [hrun]⟩
    rintro pc' w' h
    cases hrun.symm.trans h
    exact .inr ⟨hp, hw⟩
  | stub hp hw =>
    refine ⟨hmem, by simp [hrun], by simp [hrun], by simp [hrun], ?_⟩
    rintro pc' w' h
    cases hrun.symm.trans h
    exact ⟨hp, hw⟩

theorem Inv.of_decodeError {s : State} (hmem : Memory.wf s.mem = true) (hdec : decode (s.readMem s.pc) = none)
    (hrun : s.run = .faulted .decodeError s.pc (s.readMem s.pc)) : Inv s := by
  refine ⟨hmem, by simp [hrun], ?_, by simp [hrun], by simp [hrun]⟩
  rintro pc' w' h
  cases hrun.symm.trans h
  exact ⟨rfl, rfl, hdec⟩

/-! ### Ticks -/

theorem Effect.inv {i : Instr} {s t : State} (h : Effect i s t) (hmem : Memory.wf s.mem = true)
    (hrun : s.run = .running) : Inv t := by
  obtain hsame | ⟨reason, w, hcause, hfault⟩ | ⟨-, hdec, -, hfault⟩ := h.run_cases
  · exact .of_running (h.wf_mem hmem) (hsame.trans hrun)
  · exact .of_faultCause (h.wf_mem hmem) (h.params.symm ▸ hcause) hfault
  · exact .of_decodeError (h.wf_mem hmem) hdec hfault

theorem Inv.finishTick {t : State} (h : Inv t) (pc0 : Word) : Inv (t.finishTick pc0) := by
  obtain ⟨-, hhalt, -, heq⟩ | ⟨-, heq⟩ := t.finishTick_cases pc0
  · rw [heq]
    exact .of_finished h.mem hhalt rfl
  · rwa [heq]

/-- The invariant is preserved by every tick. -/
theorem Inv.step {s t : State} (h : Inv s) (hstep : step s = .next t) : Inv t := by
  obtain ⟨-, heq⟩ | ⟨-, hdec, heq⟩ | ⟨i, u, hrun, -, -, heffect, heq⟩ := step_cases s
  all_goals
    rw [heq, Host.Outcome.next.injEq] at hstep
    subst hstep
  · exact h
  · exact .of_decodeError h.mem hdec rfl
  · exact (heffect.inv h.mem hrun).finishTick s.pc

/-! ### Host writes -/

theorem Inv.writeMem {s : State} (h : Inv s) (hrun : ∀ reason pc w, s.run ≠ .faulted reason pc w) (addr v : Word) :
    Inv (s.writeMem addr v) :=
  ⟨Memory.wf_write h.mem addr v, h.finished, fun pc w hf => absurd hf (hrun .decodeError pc w),
    fun pc w hf => absurd hf (hrun .arithFault pc w), fun pc w hf => absurd hf (hrun .stub pc w)⟩

/-- The invariant is preserved by host writes to a machine that is not Faulted. -/
theorem Inv.hostWrites {s : State} (h : Inv s) (hrun : ∀ reason pc w, s.run ≠ .faulted reason pc w)
    (ws : List (Word × Word)) : Inv (s.hostWrites ws) := by
  induction ws generalizing s with
  | nil => exact h
  | cons p ws ih => exact ih (h.writeMem hrun p.1 p.2) hrun

/-- Settles O43: by cases on what a tick can do and what an instruction can do, and by induction on the host writes. -/
theorem everyTickKeepsTheInvariant : Obligations.EveryTickKeepsTheInvariant :=
  ⟨fun _ _ h hstep => h.step hstep, fun _ ws h hrun => h.hostWrites hrun ws⟩

/-! ### Reset and load -/

/-- Settles O44: the state at reset is Running over the empty canonical memory. -/
theorem invariantHoldsAtReset : Obligations.InvariantHoldsAtReset := Inv.of_running Memory.wf_nil rfl

theorem Memory.wf_writeFrom {m : Memory} (h : Memory.wf m = true) (start : Word) (ws : List Word) :
    Memory.wf (Memory.writeFrom m start ws) = true := by
  induction ws generalizing m start with
  | nil => exact h
  | cons w ws ih => exact ih (Memory.wf_write h start w) (start + 1)

/-- Settles O45: the loaded state is Running, and every write of the load keeps memory canonical. -/
theorem loadEstablishesTheInvariant : Obligations.LoadEstablishesTheInvariant := by
  intro s t ir im prog hmem h
  obtain ⟨-, rfl⟩ := State.load_eq_next_iff.mp h
  exact .of_running (Memory.wf_writeFrom hmem 0 prog) rfl

/-- At most 65,536 words written from `start` on read back by their distance from it; every other word is kept. -/
theorem Memory.read_writeFrom (m : Memory) (start : Word) {ws : List Word} (hlen : ws.length ≤ 65536) (x : Word) :
    Memory.read (Memory.writeFrom m start ws) x = ws[(x - start).toNat]?.getD (Memory.read m x) := by
  induction ws generalizing m start with
  | nil => rfl
  | cons w ws ih =>
    rw [List.length_cons] at hlen
    rw [Memory.writeFrom, ih _ _ (by omega), Memory.read_write]
    by_cases hx : start = x
    · subst hx
      have hlast : (start - (start + 1)).toNat = 65535 := by
        simp only [BitVec.toNat_sub, toNat_add_one_mod_65536]
        omega
      rw [hlast, List.getElem?_eq_none (by omega), if_pos rfl, BitVec.sub_self]
      rfl
    · have hnext : (x - start).toNat = (x - (start + 1)).toNat + 1 := by
        have hne : x.toNat ≠ start.toNat := fun h => hx (BitVec.eq_of_toNat_eq h.symm)
        simp only [BitVec.toNat_sub, toNat_add_one_mod_65536]
        omega
      rw [if_neg hx, hnext, List.getElem?_cons_succ]

/-- Settles O47: an accepted load gives one state, whose memory `Memory.read_writeFrom` reads. -/
theorem loadReplacesTheWholeState : Obligations.LoadReplacesTheWholeState := by
  intro s ir im prog
  refine ⟨fun hlen => ?accepted, fun hlen => ?refused⟩
  case accepted =>
    refine ⟨_, State.load_eq_next_iff.mpr ⟨hlen, rfl⟩, rfl, rfl, rfl, rfl, rfl, rfl, fun x => ?_⟩
    have hread := Memory.read_writeFrom im 0 hlen x
    rw [sub_zero] at hread
    refine hread.trans ?_
    split
    next hx => rw [List.getElem?_eq_getElem hx, Option.getD_some]
    next hx => rw [List.getElem?_eq_none (Nat.not_lt.mp hx), Option.getD_none]
  case refused => exact if_pos hlen

end Sys2Proof.Machine
end

section
/-! PROOFS. The assembler's statements: a parsed operand fits its position, a parsed instruction is well formed, and the
words counted in pass 1 are the words emitted (47_assembler.md R230, R232, R233). -/

namespace Sys2Proof

theorem Instr.length_basic {i : Instr} {b : Operand} (hb : i.operandB = some b) :
    i.length = 1 + i.operandA.extra + b.extra := by
  rw [Instr.length, hb]
  rfl

theorem Instr.length_special {i : Instr} (hb : i.operandB = none) : i.length = 1 + i.operandA.extra := by
  rw [Instr.length, hb]
  rfl

end Sys2Proof

namespace Sys2Proof.Machine

/-! ### Operands -/

/-- The modes a position admits. -/
def Side.admits (side : Side) (o : Operand) : Bool :=
  match side with
  | .b => o.wfB
  | .a => o.wfA

/-- A literal is inline exactly where its position has a field for it. -/
theorem literalOperand_mode (side : Side) (v : Word) :
    side.admits (literalOperand side v).mode = true ∧
      (literalOperand side v).extra.toList.length = (literalOperand side v).mode.extra := by
  cases side with
  | b => exact ⟨rfl, rfl⟩
  | a =>
    unfold literalOperand
    dsimp only
    split
    next hsmall => exact ⟨hsmall, rfl⟩
    next => exact ⟨rfl, rfl⟩

/-- A bare token is a mode of its position, with the extra word it takes. -/
theorem tokenOperand_mode {side : Side} {x : Token} {o : AsmOperand} (h : tokenOperand side x = .ok o) :
    side.admits o.mode = true ∧ o.extra.toList.length = o.mode.extra := by
  cases x with
  | literal v =>
    have ho : literalOperand side v = o := by cases side <;> exact Except.ok.inj h
    exact ho ▸ literalOperand_mode side v
  | reg | pc | sp | ex | push | pop | peek | pick | outOfRange | label | unknown =>
    cases side <;> cases h <;> exact ⟨rfl, rfl⟩

/-- `PICK n` is a mode of both positions, with one extra word. -/
theorem pickOperand_mode {side : Side} {x : Token} {o : AsmOperand} (h : pickOperand x = .ok o) :
    side.admits o.mode = true ∧ o.extra.toList.length = o.mode.extra := by
  cases x with
  | literal v | label name =>
    cases h
    cases side <;> exact ⟨rfl, rfl⟩
  | reg | pc | sp | ex | push | pop | peek | pick | outOfRange | unknown => cases h

theorem bareOperand_mode {side : Side} {t : Text} {o : AsmOperand} (h : bareOperand side t = .ok o) :
    side.admits o.mode = true ∧ o.extra.toList.length = o.mode.extra := by
  unfold bareOperand at h
  split at h
  next => cases h
  next =>
    split at h
    next => exact tokenOperand_mode h
    next =>
      split at h
      next => exact pickOperand_mode h
      next => cases h

theorem parseOperand_mode {side : Side} {t : Text} {o : AsmOperand} (h : parseOperand side t = .ok o) :
    side.admits o.mode = true ∧ o.extra.toList.length = o.mode.extra := by
  unfold parseOperand at h
  split_ifs at h
  · split at h
    next =>
      obtain ⟨hB, hA, hextra⟩ := bracketOperand_mode h
      cases side with
      | b => exact ⟨hB, hextra⟩
      | a => exact ⟨hA, hextra⟩
    next => cases h
  · exact bareOperand_mode h

/-- Settles O49: by the shape of the operand text, bracketed or bare, and then by its tokens. -/
theorem asmOperandsMatchTheirFields : Obligations.AsmOperandsMatchTheirFields :=
  fun _ _ => ⟨fun h => parseOperand_mode h, fun h => parseOperand_mode h⟩

/-! ### Instructions -/

theorem mem_of_findName {α : Type} {name : Text} {v : α} {xs : List (Text × α)} (h : findName name xs = some v) :
    (name, v) ∈ xs := by
  induction xs with
  | nil => cases h
  | cons x xs ih =>
    rw [findName] at h
    split_ifs at h with hname
    · cases h
      subst hname
      exact List.mem_cons_self
    · exact List.mem_cons_of_mem _ (ih h)

theorem basicMnemonics_operands : ∀ p ∈ basicMnemonics, ∀ b a : Operand,
    (p.2 b a).operandB = some b ∧ (p.2 b a).operandA = a := by
  simp [basicMnemonics, arithMnemonics, bitwiseMnemonics, conditionalMnemonics, carryMnemonics, Instr.operandB,
    Instr.operandA]

theorem specialMnemonics_operands : ∀ p ∈ specialMnemonics, ∀ a : Operand,
    (p.2 a).operandB = none ∧ (p.2 a).operandA = a := by
  simp [specialMnemonics, Instr.operandB, Instr.operandA]

/-- A statement an opcode word can spell, with one extra word per operand that takes one. Data is always so. -/
def AsmStmt.wf : AsmStmt → Prop
  | .instr i extras => i.wf = true ∧ 1 + extras.length = i.length
  | .data _ => True

theorem parseBasic_wf {f : Operand → Operand → Instr} {operands : List Text} {st : AsmStmt}
    (hf : ∀ b a, (f b a).operandB = some b ∧ (f b a).operandA = a) (h : parseBasic f operands = .ok st) : st.wf := by
  unfold parseBasic at h
  split at h
  next tb ta =>
    split at h
    next => cases h
    next b hparseB =>
      split at h
      next => cases h
      next a hparseA =>
        injection h with h
        subst h
        obtain ⟨hb, ha⟩ := hf b.mode a.mode
        obtain ⟨hwfB, hextraB⟩ := parseOperand_mode hparseB
        obtain ⟨hwfA, hextraA⟩ := parseOperand_mode hparseA
        refine ⟨(Instr.wf_basic hb).mpr ⟨ha.symm ▸ hwfA, hwfB⟩, ?_⟩
        rw [Instr.length_basic hb, ha, List.length_append, hextraB, hextraA]
        omega
  next => cases h

theorem parseSpecial_wf {f : Operand → Instr} {operands : List Text} {st : AsmStmt}
    (hf : ∀ a, (f a).operandB = none ∧ (f a).operandA = a) (h : parseSpecial f operands = .ok st) : st.wf := by
  unfold parseSpecial at h
  split at h
  next ta =>
    split at h
    next => cases h
    next a hparseA =>
      injection h with h
      subst h
      obtain ⟨hb, ha⟩ := hf a.mode
      obtain ⟨hwfA, hextraA⟩ := parseOperand_mode hparseA
      refine ⟨(Instr.wf_special hb).mpr (ha.symm ▸ hwfA), ?_⟩
      rw [Instr.length_special hb, ha, hextraA]
  next => cases h

theorem parseData_wf {t : Text} {st : AsmStmt} (h : parseData t = .ok st) : st.wf := by
  unfold parseData at h
  split at h
  next => cases h
  next =>
    split at h
    next =>
      injection h with h
      subst h
      exact trivial
    next => cases h

/-- Every statement that parses is well formed. -/
theorem parseStatement_wf {t : Text} {st : AsmStmt} (h : parseStatement t = .ok st) : st.wf := by
  unfold parseStatement at h
  dsimp only at h
  split_ifs at h
  · exact parseData_wf h
  · split at h
    next f hf => exact parseSpecial_wf (specialMnemonics_operands _ (mem_of_findName hf)) h
    next =>
      split at h
      next f hf => exact parseBasic_wf (basicMnemonics_operands _ (mem_of_findName hf)) h
      next => cases h

/-! ### Emission -/

/-- The extra words have values exactly where the first one and the rest have. -/
theorem extraWords_cons_eq_some {symbols : Symbols} {x : AsmExtra} {xs : List AsmExtra} {vs : List Word} :
    extraWords symbols (x :: xs) = some vs ↔
      ∃ v us, x.value symbols = some v ∧ extraWords symbols xs = some us ∧ vs = v :: us := by
  rw [extraWords]
  cases x.value symbols <;> cases extraWords symbols xs <;> simp [eq_comm]

theorem length_of_extraWords {symbols : Symbols} {xs : List AsmExtra} {vs : List Word}
    (h : extraWords symbols xs = some vs) : vs.length = xs.length := by
  induction xs generalizing vs with
  | nil =>
    cases h
    rfl
  | cons x xs ih =>
    obtain ⟨v, us, -, hus, rfl⟩ := extraWords_cons_eq_some.mp h
    exact congrArg (· + 1) (ih hus)

theorem emit_instr_eq_some {symbols : Symbols} {i : Instr} {xs : List AsmExtra} {us : List Word} :
    (AsmStmt.instr i xs).emit symbols = some us ↔ ∃ vs, extraWords symbols xs = some vs ∧ encode i :: vs = us :=
  Option.map_eq_some_iff

theorem length_of_emit {st : AsmStmt} {symbols : Symbols} {us : List Word} (h : st.emit symbols = some us) :
    us.length = st.length := by
  cases st with
  | instr i xs =>
    obtain ⟨vs, hvs, rfl⟩ := emit_instr_eq_some.mp h
    rw [List.length_cons, length_of_extraWords hvs, Nat.add_comm]
    rfl
  | data ws =>
    cases h
    rfl

/-- Settles O50: a parsed instruction is well formed, so its word decodes back and has the length of the instruction. -/
theorem asmLengthsMirrorTheDecoder : Obligations.AsmLengthsMirrorTheDecoder := by
  refine ⟨fun t i xs h => ?_, fun st symbols ws h => length_of_emit h⟩
  obtain ⟨hwf, hlen⟩ := parseStatement_wf h
  have hdec := decode_encode hwf
  exact ⟨hwf, hlen.trans (wordLength_of_decode hdec).symm, hdec⟩

end Sys2Proof.Machine
end

section
/-! PROOFS. The two passes: what a successful assembly returns, what every line does to the diagnostics, and when
assembly fails (47_assembler.md R223 to R226, R234 to R241). -/

namespace Sys2Proof.Machine

/-! ### The statements of pass 1 -/

theorem parseStatement_of_afterLabel {t : Text} {st : AsmStmt} (h : afterLabel t = .ok (some st)) :
    parseStatement t = .ok st := by
  unfold afterLabel at h
  split at h
  next => cases h
  next =>
    split_ifs at h
    split at h
    next hparse =>
      injection h with h
      injection h with h
      exact h ▸ hparse
    next => cases h

/-- A line's statement is a text that parses, with or without a label before it. -/
theorem parseStatement_of_parseLine {symbols : Symbols} {off : Nat} {line : Text} {st : AsmStmt}
    (h : (parseLine symbols off line).outcome = .ok (some st)) : ∃ t, parseStatement t = .ok st := by
  unfold parseLine at h
  split at h
  next => cases h
  next c cs _ =>
    dsimp only at h
    split_ifs at h
    · exact ⟨afterToken cs, parseStatement_of_afterLabel h⟩
    · exact ⟨c :: cs, parseStatement_of_afterLabel (t := c :: cs) h⟩

theorem pass1_stmts_wf (lines : List Text) (n off : Nat) (symbols : Symbols) :
    ∀ x ∈ (pass1 n off symbols lines).stmts, x.2.wf := by
  induction lines generalizing n off symbols with
  | nil => exact fun _ h => absurd h List.not_mem_nil
  | cons line lines ih =>
    obtain ⟨e, -, hcons⟩ | ⟨-, hcons⟩ | ⟨st, hline, hcons⟩ := pass1_cons n off symbols line lines
    all_goals rw [hcons]
    · exact ih _ _ _
    · exact ih _ _ _
    · obtain ⟨t, ht⟩ := parseStatement_of_parseLine hline
      exact List.forall_mem_cons.mpr ⟨parseStatement_wf ht, ih _ _ _⟩

/-- The number of words of a list of statements, the offset pass 1 has reached after them. -/
def stmtsLength (stmts : List (Nat × AsmStmt)) : Nat := (stmts.map fun x => x.2.length).sum

theorem stmtsLength_cons (n : Nat) (st : AsmStmt) (stmts : List (Nat × AsmStmt)) :
    stmtsLength ((n, st) :: stmts) = st.length + stmtsLength stmts := rfl

/-! ### Pass 2 -/

theorem pass2_cons_eq_ok {symbols : Symbols} {n : Nat} {st : AsmStmt} {rest : List (Nat × AsmStmt)} {ws : List Word} :
    pass2 symbols ((n, st) :: rest) = .ok ws ↔
      ∃ us vs, st.emit symbols = some us ∧ pass2 symbols rest = .ok vs ∧ ws = us ++ vs := by
  rw [pass2]
  cases st.emit symbols <;> cases pass2 symbols rest <;> simp [eq_comm]

/-- The output is the words of the statements, one after another. -/
theorem length_of_pass2 {symbols : Symbols} {stmts : List (Nat × AsmStmt)} {ws : List Word}
    (h : pass2 symbols stmts = .ok ws) : ws.length = stmtsLength stmts := by
  induction stmts generalizing ws with
  | nil =>
    cases h
    rfl
  | cons x stmts ih =>
    obtain ⟨us, vs, hus, hvs, rfl⟩ := pass2_cons_eq_ok.mp h
    rw [List.length_append, length_of_emit hus, ih hvs, stmtsLength_cons]

/-- Every statement's words stand between those of the statements before it and those of the statements after it. -/
theorem pass2_split {symbols : Symbols} {pre post : List (Nat × AsmStmt)} {n : Nat} {st : AsmStmt} {ws : List Word}
    (h : pass2 symbols (pre ++ (n, st) :: post) = .ok ws) :
    ∃ vs us xs, ws = vs ++ (us ++ xs) ∧ vs.length = stmtsLength pre ∧ st.emit symbols = some us := by
  induction pre generalizing ws with
  | nil =>
    obtain ⟨us, xs, hus, -, rfl⟩ := pass2_cons_eq_ok.mp h
    exact ⟨[], us, xs, rfl, rfl, hus⟩
  | cons x pre ih =>
    obtain ⟨ps, rs, hps, hrs, rfl⟩ := pass2_cons_eq_ok.mp h
    obtain ⟨vs, us, xs, rfl, hvs, hus⟩ := ih hrs
    refine ⟨ps ++ vs, us, xs, (List.append_assoc _ _ _).symm, ?_, hus⟩
    rw [List.length_append, length_of_emit hps, hvs, stmtsLength_cons]

/-- The only diagnostic of pass 2 (R237). -/
theorem kind_of_pass2_error {symbols : Symbols} {stmts : List (Nat × AsmStmt)} {d : Diagnostic}
    (h : pass2 symbols stmts = .error d) : d.kind = .undefinedLabel := by
  induction stmts with
  | nil => cases h
  | cons x stmts ih =>
    rw [pass2] at h
    split at h
    next =>
      injection h with h
      exact h ▸ rfl
    next =>
      split at h
      next hrest =>
        injection h with h
        exact ih (h ▸ hrest)
      next => cases h

/-! ### The result of an assembly -/

section Result
variable {t : Text}

theorem assembleText_of_pass2_error {d : Diagnostic}
    (h : pass2 (pass1 1 0 [] (sourceLines t)).symbols (pass1 1 0 [] (sourceLines t)).stmts = .error d) :
    assembleText t = .err ((pass1 1 0 [] (sourceLines t)).diagnostics ++ [d]) := by
  unfold assembleText
  dsimp only
  rw [h]
  cases (pass1 1 0 [] (sourceLines t)).diagnostics <;> rfl

theorem assembleText_of_pass2_ok {ws : List Word}
    (h : pass2 (pass1 1 0 [] (sourceLines t)).symbols (pass1 1 0 [] (sourceLines t)).stmts = .ok ws) :
    assembleText t =
      if (pass1 1 0 [] (sourceLines t)).diagnostics = [] then .ok ws
      else .err (pass1 1 0 [] (sourceLines t)).diagnostics := by
  unfold assembleText
  dsimp only
  rw [h]
  cases (pass1 1 0 [] (sourceLines t)).diagnostics <;> rfl

/-- Assembly succeeds exactly where neither pass has a diagnostic. -/
theorem assembleText_eq_ok {ws : List Word} :
    assembleText t = .ok ws ↔
      (pass1 1 0 [] (sourceLines t)).diagnostics = [] ∧
        pass2 (pass1 1 0 [] (sourceLines t)).symbols (pass1 1 0 [] (sourceLines t)).stmts = .ok ws := by
  cases h : pass2 (pass1 1 0 [] (sourceLines t)).symbols (pass1 1 0 [] (sourceLines t)).stmts with
  | error d => simp [assembleText_of_pass2_error h]
  | ok vs =>
    rw [assembleText_of_pass2_ok h]
    split
    next hdiag => simp [hdiag]
    next hdiag => simp [hdiag]

end Result

/-- Settles O51: pass 2 emits the statements in order, each with the length pass 1 counted, and a statement's first word
decodes because every statement of pass 1 is well formed. -/
theorem asmOutputDecodesToItsStatements : Obligations.AsmOutputDecodesToItsStatements := by
  intro t ws h p pre post n st hstmts
  obtain ⟨-, hpass2⟩ := assembleText_eq_ok.mp h
  have hwf : st.wf := pass1_stmts_wf (sourceLines t) 1 0 [] (n, st) (hstmts ▸ List.mem_append_cons_self)
  rw [hstmts] at hpass2
  obtain ⟨vs, us, xs, rfl, hvs, hus⟩ := pass2_split hpass2
  refine ⟨us, hus, ?offset, ?decodes⟩
  case offset =>
    have hdrop : (vs ++ (us ++ xs)).drop (stmtsLength pre) = us ++ xs := List.drop_left' hvs
    rw [← length_of_emit hus]
    exact (congrArg (List.take us.length) hdrop).trans List.take_left
  case decodes =>
    rintro i extras rfl
    obtain ⟨zs, -, rfl⟩ := emit_instr_eq_some.mp hus
    exact decode_encode hwf.1

/-! ### The size of the output -/

/-- Where pass 1 reports nothing, it never passes the limit (R235). -/
theorem stmtsLength_le_of_no_diagnostics {lines : List Text} {n off : Nat} {symbols : Symbols}
    (hoff : off ≤ maxProgram) (h : (pass1 n off symbols lines).diagnostics = []) :
    off + stmtsLength (pass1 n off symbols lines).stmts ≤ maxProgram := by
  induction lines generalizing n off symbols with
  | nil => exact hoff
  | cons line lines ih =>
    obtain ⟨e, -, hcons⟩ | ⟨-, hcons⟩ | ⟨st, -, hcons⟩ := pass1_cons n off symbols line lines
    all_goals rw [hcons] at h ⊢
    · cases h
    · exact ih hoff h
    · obtain ⟨hlimit, hrest⟩ := List.append_eq_nil_iff.mp h
      have hfits : off + st.length ≤ maxProgram := by
        by_contra hover
        rw [if_pos ⟨hoff, Nat.lt_of_not_le hover⟩] at hlimit
        cases hlimit
      rw [stmtsLength_cons, ← Nat.add_assoc]
      exact ih hfits hrest

/-- Settles O52: pass 1 has reported nothing, so the statements fit, and their words are as many. -/
theorem asmOutputCanBeLoaded : Obligations.AsmOutputCanBeLoaded := by
  intro t ws h
  obtain ⟨hdiag, hpass2⟩ := assembleText_eq_ok.mp h
  have hlen : ws.length ≤ 65536 := by
    rw [length_of_pass2 hpass2, ← Nat.zero_add (stmtsLength _)]
    exact stmtsLength_le_of_no_diagnostics (Nat.zero_le _) hdiag
  exact ⟨hlen, fun ir im s => ⟨_, State.load_eq_next_iff.mpr ⟨hlen, rfl⟩⟩⟩

/-! ### Failure -/

/-- A reference to an undefined label has no value, and so the statement has no words. -/
theorem emit_eq_none_of_undefined {symbols : Symbols} {i : Instr} {xs : List AsmExtra} {name : Text} {offset : Word}
    (hmem : AsmExtra.label name offset ∈ xs) (hundef : findName name symbols = none) :
    (AsmStmt.instr i xs).emit symbols = none := by
  rw [Option.eq_none_iff_forall_ne_some]
  intro us hus
  obtain ⟨vs, hvs, -⟩ := emit_instr_eq_some.mp hus
  clear hus
  induction xs generalizing vs with
  | nil => cases hmem
  | cons x xs ih =>
    obtain ⟨v, zs, hv, hzs, -⟩ := extraWords_cons_eq_some.mp hvs
    rcases List.mem_cons.mp hmem with rfl | hmem
    · rw [AsmExtra.value, hundef] at hv
      cases hv
    · exact ih hmem zs hzs

/-- Settles O55: a statement without words makes pass 2 fail, and assembly keeps the diagnostics of pass 1 in front. -/
theorem asmFailsOnAnyDiagnostic : Obligations.AsmFailsOnAnyDiagnostic := by
  intro t p
  refine ⟨?undefined, ?diagnostic⟩
  case undefined =>
    intro n i xs name offset hstmt hmem hundef
    cases hpass2 : pass2 p.symbols p.stmts with
    | error d => exact ⟨_, d, assembleText_of_pass2_error hpass2, kind_of_pass2_error hpass2, rfl⟩
    | ok ws =>
      obtain ⟨pre, post, hsplit⟩ := List.append_of_mem hstmt
      rw [hsplit] at hpass2
      obtain ⟨vs, us, zs, -, -, hus⟩ := pass2_split hpass2
      rw [emit_eq_none_of_undefined hmem hundef] at hus
      cases hus
  case diagnostic =>
    intro hdiag
    cases hpass2 : pass2 p.symbols p.stmts with
    | error d => exact ⟨_, assembleText_of_pass2_error hpass2, List.prefix_append _ _⟩
    | ok ws => exact ⟨_, (assembleText_of_pass2_ok hpass2).trans (if_neg hdiag), List.prefix_rfl⟩

/-! ### The diagnostics, line by line -/

section OneLine
variable {n off : Nat} {symbols : Symbols} {line : Text} (lines : List Text)

theorem pass1_cons_error {e : AsmError} (h : (parseLine symbols off line).outcome = .error e) :
    pass1 n off symbols (line :: lines) =
      { pass1 (n + 1) off (parseLine symbols off line).symbols lines with
        diagnostics := ⟨n, e⟩ :: (pass1 (n + 1) off (parseLine symbols off line).symbols lines).diagnostics } := by
  rw [pass1, h]

theorem pass1_cons_none (h : (parseLine symbols off line).outcome = .ok none) :
    pass1 n off symbols (line :: lines) = pass1 (n + 1) off (parseLine symbols off line).symbols lines := by
  rw [pass1, h]

theorem pass1_cons_some {st : AsmStmt} (h : (parseLine symbols off line).outcome = .ok (some st)) :
    pass1 n off symbols (line :: lines) =
      { symbols := (pass1 (n + 1) (off + st.length) (parseLine symbols off line).symbols lines).symbols
        diagnostics :=
          (if off ≤ maxProgram ∧ maxProgram < off + st.length then [⟨n, .programTooLong⟩] else []) ++
            (pass1 (n + 1) (off + st.length) (parseLine symbols off line).symbols lines).diagnostics
        stmts := (n, st) :: (pass1 (n + 1) (off + st.length) (parseLine symbols off line).symbols lines).stmts } := by
  rw [pass1, h]
  dsimp only
  split <;> rfl

end OneLine

/-- Pass 1 over two blocks of lines: the second begins at the line number, offset and table the first ends with. -/
theorem pass1_append (pre rest : List Text) (n off : Nat) (symbols : Symbols) :
    let p := pass1 n off symbols pre
    let q := pass1 (n + pre.length) (off + stmtsLength p.stmts) p.symbols rest
    pass1 n off symbols (pre ++ rest) = ⟨q.symbols, p.diagnostics ++ q.diagnostics, p.stmts ++ q.stmts⟩ := by
  induction pre generalizing n off symbols with
  | nil => rfl
  | cons line pre ih =>
    have hnum : n + (line :: pre).length = n + 1 + pre.length := by
      rw [List.length_cons]
      omega
    rw [List.cons_append, hnum]
    dsimp only at ih ⊢
    cases h : (parseLine symbols off line).outcome with
    | error e => rw [pass1_cons_error _ h, pass1_cons_error _ h, ih, List.cons_append]
    | ok o =>
      cases o with
      | none => rw [pass1_cons_none _ h, pass1_cons_none _ h, ih]
      | some st =>
        rw [pass1_cons_some _ h, pass1_cons_some _ h, ih, stmtsLength_cons, ← Nat.add_assoc, List.append_assoc,
          List.cons_append]

/-- What one line reports: nothing, its own error, or the limit at a statement that parses. -/
theorem pass1_singleton_diagnostics (n off : Nat) (symbols : Symbols) (line : Text) :
    (pass1 n off symbols [line]).diagnostics = [] ∨
    ∃ kind, (pass1 n off symbols [line]).diagnostics = [⟨n, kind⟩] ∧
      ((parseLine symbols off line).outcome = .error kind ∨
        kind = .programTooLong ∧ ∃ st, (parseLine symbols off line).outcome = .ok (some st)) := by
  cases h : (parseLine symbols off line).outcome with
  | error e => exact .inr ⟨e, by rw [pass1_cons_error _ h]; rfl, .inl rfl⟩
  | ok o =>
    cases o with
    | none => exact .inl (by rw [pass1_cons_none _ h]; rfl)
    | some st =>
      rw [pass1_cons_some _ h]
      dsimp only
      split
      · exact .inr ⟨.programTooLong, rfl, .inr ⟨rfl, st, rfl⟩⟩
      · exact .inl rfl

/-- Every line in error, as pass 1 reaches it, is reported with its number and kind. -/
theorem mem_diagnostics_of_error {pre post : List Text} {line : Text} {n off : Nat} {symbols : Symbols} {e : AsmError}
    (h : (parseLine (pass1 n off symbols pre).symbols (off + stmtsLength (pass1 n off symbols pre).stmts)
      line).outcome = .error e) :
    (⟨n + pre.length, e⟩ : Diagnostic) ∈ (pass1 n off symbols (pre ++ line :: post)).diagnostics := by
  rw [pass1_append, pass1_cons_error _ h]
  exact List.mem_append_right _ List.mem_cons_self

/-- Every diagnostic is that of a line in error, or of a statement that crosses the limit. -/
theorem line_of_mem_diagnostics {lines : List Text} {n off : Nat} {symbols : Symbols} {d : Diagnostic}
    (h : d ∈ (pass1 n off symbols lines).diagnostics) :
    ∃ pre line post, lines = pre ++ line :: post ∧ d.line = n + pre.length ∧
      let p := pass1 n off symbols pre
      let r := parseLine p.symbols (off + stmtsLength p.stmts) line
      r.outcome = .error d.kind ∨ d.kind = .programTooLong ∧ ∃ st, r.outcome = .ok (some st) := by
  induction lines using List.reverseRecOn with
  | nil => cases h
  | append_singleton lines line ih =>
    rw [pass1_append] at h
    rcases List.mem_append.mp h with hd | hd
    · obtain ⟨pre, l, post, rfl, hnum, hkind⟩ := ih hd
      exact ⟨pre, l, post ++ [line], List.append_assoc _ _ _, hnum, hkind⟩
    · obtain hnil | ⟨kind, hkind, hcause⟩ := pass1_singleton_diagnostics (n + lines.length)
        (off + stmtsLength (pass1 n off symbols lines).stmts) (pass1 n off symbols lines).symbols line
      · rw [hnil] at hd
        cases hd
      · rw [hkind] at hd
        obtain rfl := List.mem_singleton.mp hd
        exact ⟨lines, line, [], rfl, rfl, hcause⟩

theorem bounds_of_mem_diagnostics {lines : List Text} {n off : Nat} {symbols : Symbols} {d : Diagnostic}
    (h : d ∈ (pass1 n off symbols lines).diagnostics) : n ≤ d.line ∧ d.line < n + lines.length := by
  obtain ⟨pre, line, post, rfl, hnum, -⟩ := line_of_mem_diagnostics h
  rw [hnum, List.length_append, List.length_cons]
  omega

/-- No line is reported twice, and the reports stand in line order. -/
theorem pairwise_diagnostics (lines : List Text) (n off : Nat) (symbols : Symbols) :
    ((pass1 n off symbols lines).diagnostics.map Diagnostic.line).Pairwise (· < ·) := by
  rw [List.pairwise_map]
  induction lines using List.reverseRecOn with
  | nil => exact List.Pairwise.nil
  | append_singleton lines line ih =>
    rw [pass1_append]
    refine List.pairwise_append.mpr ⟨ih, ?last, ?order⟩
    case last =>
      obtain hnil | ⟨kind, hkind, -⟩ := pass1_singleton_diagnostics (n + lines.length)
        (off + stmtsLength (pass1 n off symbols lines).stmts) (pass1 n off symbols lines).symbols line
      · rw [hnil]
        exact List.Pairwise.nil
      · rw [hkind]
        exact List.pairwise_singleton _ _
    case order =>
      intro d hd d' hd'
      have hfirst := (bounds_of_mem_diagnostics hd).2
      have hlast := (bounds_of_mem_diagnostics hd').1
      omega

/-! ### The lines in error -/

theorem afterLabel_error {t : Text} {e : AsmError} (hne : t ≠ []) (hcolon : t.head? ≠ some ':')
    (h : parseStatement t = .error e) : afterLabel t = .error e := by
  cases t with
  | nil => exact absurd rfl hne
  | cons c cs =>
    have hc : ¬ (c == ':') = true := fun hc => hcolon (congrArg some (beq_iff_eq.mp hc))
    rw [afterLabel, if_neg hc, h]

theorem afterLabel_secondLabel {t : Text} (hcolon : t.head? = some ':') : afterLabel t = .error .badOperand := by
  cases t with
  | nil => cases hcolon
  | cons c cs =>
    cases hcolon
    rfl

/-- A line that begins with no colon is a statement. -/
theorem parseLine_statement (symbols : Symbols) (off : Nat) {line : Text} (hne : stripLine line ≠ [])
    (hcolon : (stripLine line).head? ≠ some ':') :
    parseLine symbols off line = ⟨symbols, afterLabel (stripLine line)⟩ := by
  unfold parseLine
  cases h : stripLine line with
  | nil => exact absurd h hne
  | cons c cs =>
    rw [h] at hcolon
    exact if_neg fun hc => hcolon (congrArg some (beq_iff_eq.mp hc))

/-- Settles O54: pass 1 over a block of lines and then a line is what both report, in that order. -/
theorem everyErroneousLineIsReportedOnce : Obligations.EveryErroneousLineIsReportedOnce := by
  refine ⟨?reported, ?converse, ?order, ?lines⟩
  case reported => exact fun _ _ _ _ _ _ _ h => mem_diagnostics_of_error h
  case converse => exact fun _ _ _ _ _ h => line_of_mem_diagnostics h
  case order =>
    exact fun lines n off symbols =>
      ⟨pairwise_diagnostics lines n off symbols, fun _ hd => bounds_of_mem_diagnostics hd⟩
  case lines =>
    rintro symbols off line _ rest e rfl
    refine ⟨?statement, ?badLabel, ?duplicate, ?afterNewLabel⟩
    case statement =>
      intro hne hcolon h
      rw [parseLine_statement symbols off hne hcolon]
      exact afterLabel_error hne hcolon h
    case badLabel =>
      intro hline hbad
      rw [parseLine_label symbols off hline, if_pos hbad]
    case duplicate =>
      intro hline hvalid hdef
      obtain ⟨v, hv⟩ := Option.isSome_iff_exists.mp hdef
      rw [parseLine_duplicateLabel off hline hvalid hv]
    case afterNewLabel =>
      intro hline hvalid hnew
      rw [parseLine_label symbols off hline, if_neg (by simp [hvalid]), if_neg (by simp [hnew])]
      exact ⟨fun hne hcolon h => afterLabel_error hne hcolon h, afterLabel_secondLabel⟩

end Sys2Proof.Machine
end

section
/-! PROOFS. The tick, and what an instruction may change (41_cycle.md R110 to R118; 60_exceptions.md R272, R277). -/

namespace Sys2Proof.Machine

/-! ### One tick -/

theorem State.finishTick_eq (pc0 : Word) (t : State) :
    t.finishTick pc0 =
      if t.run = .running ∧ t.params.haltDetect = true ∧ t.pc = pc0 then { t with run := .finished } else t := by
  obtain ⟨hrun, hhalt, hpc, heq⟩ | ⟨hnot, heq⟩ := t.finishTick_cases pc0
  · rw [heq, if_pos ⟨hrun, hhalt, hpc⟩]
  · rw [heq, if_neg hnot]

/-- Settles O36: the termination rule reads the parameters, which the instruction leaves alone. -/
theorem stepRunsTheDecodedInstruction : Obligations.StepRunsTheDecodedInstruction := by
  intro s i hrun hdec
  obtain ⟨t, hexec, heffect⟩ := exec_effect i s
  refine ⟨t, hexec, ?_⟩
  rw [step_of_exec hrun hdec hexec, State.finishTick_eq, heffect.params]

/-- Settles O37: the branch of the tick at a word that does not decode. -/
theorem fetchOfAnUndecodableWordFaults : Obligations.FetchOfAnUndecodableWordFaults :=
  fun _ hrun hdec => step_of_undecodable hrun hdec

/-- Settles O39: every effect is a next state, and so is every branch of a tick. -/
theorem everyTickHasANextState : Obligations.EveryTickHasANextState := by
  refine ⟨fun s => ?_, fun i s => ?_⟩
  · obtain ⟨-, heq⟩ | ⟨-, -, heq⟩ | ⟨i, t, -, -, -, -, heq⟩ := step_cases s
    all_goals exact ⟨_, heq⟩
  · obtain ⟨t, hexec, -⟩ := exec_effect i s
    exact ⟨t, hexec⟩

/-- A state that a step does not change is not changed by any number of steps. -/
theorem run_of_step_self {M : Host.Core} {s : M.State} (h : M.step s = .next s) (n : Nat) : M.run n s = .next s := by
  induction n with
  | zero => rfl
  | succ n ih => rw [Host.Core.run, h]; exact ih

/-- Settles O38: a tick of a stopped machine gives the same state, and a load gives a Running one. -/
theorem stoppedMachineNeverChanges : Obligations.StoppedMachineNeverChanges :=
  fun _ n hrun => ⟨run_of_step_self (M := Sys2Proof.core) (step_of_not_running hrun) n,
    fun _ _ _ hlen => ⟨_, State.load_eq_next_iff.mpr ⟨hlen, rfl⟩, rfl⟩⟩

/-- SET PC to the next word. -/
theorem exec_set_pc_nextLit (s : State) :
    exec (.set .pc .nextLit) s = .next { s with pc := s.readMem (s.pc + 1) } := rfl

/-- Settles O40: the word is SET PC, next word, which here stores the PC that the termination rule compares with. -/
theorem jumpToItselfFinishes : Obligations.JumpToItselfFinishes := by
  intro s hrun hword hnext
  have hdec : decode s.fetchWord = some (.set .pc .nextLit) := by
    rw [State.fetchWord, hword]
    decide
  rw [step_of_exec hrun hdec (exec_set_pc_nextLit s), hnext, State.finishTick_eq]
  dsimp only
  split_ifs with h hhalt hhalt
  · rfl
  · exact absurd h.2.1 hhalt
  · exact absurd ⟨hrun, hhalt, rfl⟩ h
  · rw [hrun]

/-! ### The fields an effect changes -/

section Stored
variable {loc : Location} {v : Word} {s t : State} (h : StoredAt loc v s t)
include h

theorem StoredAt.regs_cases (q : Reg) : t.regs.get q = s.regs.get q ∨ loc = .reg q := by
  by_cases hloc : loc = .reg q
  · exact .inr hloc
  · exact .inl ((h.regs q).trans (if_neg hloc))

theorem StoredAt.mem_cases (x : Word) : t.readMem x = s.readMem x ∨ loc = .mem x := by
  by_cases hloc : loc = .mem x
  · exact .inr hloc
  · exact .inl ((h.mem x).trans (if_neg hloc))

theorem StoredAt.sp_cases : t.sp = s.sp ∨ loc = .sp := by
  by_cases hloc : loc = .sp
  · exact .inr hloc
  · exact .inl (h.sp.trans (if_neg hloc))

theorem StoredAt.pc_cases : t.pc = s.pc ∨ loc = .pc := by
  by_cases hloc : loc = .pc
  · exact .inr hloc
  · exact .inl (h.pc.trans (if_neg hloc))

end Stored

theorem StoredPlain.ex_cases {loc : Location} {v : Word} {s t : State} (h : StoredPlain loc v s t) :
    t.ex = s.ex ∨ loc = .ex := by
  by_cases hloc : loc = .ex
  · exact .inr hloc
  · exact .inl (h.2.trans (if_neg hloc))

/-- What a store changes at its location, it changes at the target of the instruction. -/
theorem or_storeTarget {i : Instr} {s : State} {loc loc' : Location} {p : Prop} (htarget : storeTarget i s = some loc)
    (h : p ∨ loc = loc') : p ∨ storeTarget i s = some loc' :=
  h.imp_right fun hloc => htarget.trans (congrArg some hloc)

section Effects
variable {i : Instr} {s t : State} (h : Effect i s t)
include h

theorem Effect.regs_cases (q : Reg) :
    t.regs.get q = s.regs.get q ∨ storeTarget i s = some (.reg q) ∨ movesIJ i ∧ (q = .i ∨ q = .j) := by
  rw [← afterOperands_regs i s]
  cases h with
  | store loc v htarget =>
    exact (or_storeTarget htarget ((State.writeLoc_stored _ loc v).1.regs_cases q)).imp_right .inl
  | storeEx loc r htarget _ =>
    exact (or_storeTarget htarget ((State.writeWithEx_stored _ loc r).1.regs_cases q)).imp_right .inl
  | storeMove loc v d htarget hmoves =>
    by_cases hq : q = .i ∨ q = .j
    · exact .inr (.inr ⟨hmoves, hq⟩)
    · rw [State.moveIJ_get_of_ne _ d (mt .inl hq) (mt .inr hq)]
      exact (or_storeTarget htarget ((State.writeLoc_stored _ loc v).1.regs_cases q)).imp_right .inl
  | skip _ => exact .inl (by rw [State.skipNext_eq])
  | call _ _ _ | setIa _ _ _ | evaluated | fault _ _ _ => exact .inl rfl

theorem Effect.mem_cases (x : Word) : t.readMem x = s.readMem x ∨ storeTarget i s = some (.mem x) := by
  rw [← afterOperands_readMem i s]
  cases h with
  | store loc v htarget | storeMove loc v d htarget _ =>
    exact or_storeTarget htarget ((State.writeLoc_stored _ loc v).1.mem_cases x)
  | storeEx loc r htarget _ =>
    exact or_storeTarget htarget ((State.writeWithEx_stored _ loc r).1.mem_cases x)
  | call a _ hi =>
    subst hi
    by_cases hx : (afterOperands (.jsr a) s).sp - 1 = x
    · exact .inr (congrArg (fun y => some (Location.mem y)) hx)
    · exact .inl ((Memory.read_write _ _ x _).trans (if_neg hx))
  | skip _ => exact .inl (by rw [State.skipNext_eq]; rfl)
  | setIa _ _ _ | evaluated | fault _ _ _ => exact .inl rfl

theorem Effect.ex_cases : t.ex = s.ex ∨ storeTarget i s = some .ex ∨ writesEx i s := by
  rw [← afterOperands_ex i s]
  cases h with
  | store loc v htarget | storeMove loc v d htarget _ =>
    exact (or_storeTarget htarget (State.writeLoc_stored _ loc v).ex_cases).imp_right .inl
  | storeEx loc r _ hex => exact .inr (.inr hex)
  | skip _ => exact .inl (by rw [State.skipNext_eq])
  | call _ _ _ | setIa _ _ _ | evaluated | fault _ _ _ => exact .inl rfl

theorem Effect.sp_cases : t.sp = (afterOperands i s).sp ∨ storeTarget i s = some .sp ∨ ∃ a, i = .jsr a := by
  cases h with
  | store loc v htarget | storeMove loc v d htarget _ =>
    exact (or_storeTarget htarget (State.writeLoc_stored _ loc v).1.sp_cases).imp_right .inl
  | storeEx loc r htarget _ =>
    exact (or_storeTarget htarget (State.writeWithEx_stored _ loc r).1.sp_cases).imp_right .inl
  | call a _ hi => exact .inr (.inr ⟨a, hi⟩)
  | skip _ => exact .inl (by rw [State.skipNext_eq])
  | setIa _ _ _ | evaluated | fault _ _ _ => exact .inl rfl

theorem Effect.pc_cases :
    t.pc = (afterOperands i s).pc ∨ storeTarget i s = some .pc ∨ (∃ a, i = .jsr a) ∨
      isConditional i ∧
        t.pc = (afterOperands i s).pc + BitVec.ofNat 16 (wordLength (s.readMem (afterOperands i s).pc)) := by
  cases h with
  | store loc v htarget | storeMove loc v d htarget _ =>
    exact (or_storeTarget htarget (State.writeLoc_stored _ loc v).1.pc_cases).imp_right .inl
  | storeEx loc r htarget _ =>
    exact (or_storeTarget htarget (State.writeWithEx_stored _ loc r).1.pc_cases).imp_right .inl
  | call a _ hi => exact .inr (.inr (.inl ⟨a, hi⟩))
  | skip hcond =>
    obtain ⟨-, heq⟩ | ⟨-, -, heq⟩ := (afterOperands i s).skipNext_cases
    · rw [heq, State.fetchWord, afterOperands_readMem]
      exact .inr (.inr (.inr ⟨hcond, rfl⟩))
    · rw [heq]
      exact .inl rfl
  | setIa _ _ _ | evaluated | fault _ _ _ => exact .inl rfl

theorem Effect.ia_cases : t.ia = s.ia ∨ ∃ a, i = .ias a := by
  rw [← afterOperands_ia i s]
  cases h with
  | store loc v _ | storeMove loc v _ _ _ => exact .inl (State.writeLoc_stored _ loc v).1.ia
  | storeEx loc r _ _ => exact .inl (State.writeWithEx_stored _ loc r).1.ia
  | setIa a _ hi => exact .inr ⟨a, hi⟩
  | skip _ => exact .inl (by rw [State.skipNext_eq])
  | call _ _ _ | evaluated | fault _ _ _ => exact .inl rfl

end Effects

/-! ### The frame of every instruction -/

/-- SP moves with the operands only by a POP or a PUSH. -/
theorem afterOperands_sp_ne {i : Instr} {s : State} (h : (afterOperands i s).sp ≠ s.sp) :
    i.operandB = some .push ∨ i.operandB = some .pop ∨ i.operandA = .pop ∨ i.operandA = .push := by
  contrapose! h
  obtain ⟨hBpush, hBpop, hApop, hApush⟩ := h
  cases hb : i.operandB with
  | some b =>
    rw [hb, ne_eq, Option.some.injEq] at hBpush hBpop
    rw [afterOperands_basic hb, resolveBasic_sp, if_neg hBpop, if_neg hApop, if_neg hBpush, if_neg hApush]
    simp
  | none =>
    rw [afterOperands_special hb, resolveSpecial_sp, if_neg hApop, if_neg hApush]
    simp

/-- Settles O41: field by field, from what each effect changes. -/
theorem execChangesOnlyItsTargets : Obligations.ExecChangesOnlyItsTargets := by
  intro i s t hexec
  have h := effect_of_exec hexec
  refine ⟨?regs, ?mem, ?ex, ?sp, ?pc, ?ia, ?run, h.params⟩
  case regs => exact fun q hne => (h.regs_cases q).resolve_left hne
  case mem => exact fun x hne => (h.mem_cases x).resolve_left hne
  case ex => exact fun hne => h.ex_cases.resolve_left hne
  case sp =>
    intro hne
    obtain hsame | htarget | hcall := h.sp_cases
    · exact .inr (.inr (afterOperands_sp_ne (hsame ▸ hne)))
    · exact .inl htarget
    · exact .inr (.inl hcall)
  case pc =>
    rw [← afterOperands_pc]
    exact fun hne => h.pc_cases.resolve_left hne
  case ia => exact fun hne => h.ia_cases.resolve_left hne
  case run =>
    intro hne
    obtain hsame | ⟨reason, w, -, hfault⟩ | ⟨-, -, -, hfault⟩ := h.run_cases
    · exact absurd hsame hne
    · exact ⟨_, _, _, hfault⟩
    · exact ⟨_, _, _, hfault⟩

/-! ### Faults under the settings of the source -/

/-- Under the settings of the source no instruction faults by itself. -/
theorem not_faultCause_of_sourceSettings {p : Params} (hp : sourceSettings p) (reason : FaultReason) (w : Word) :
    ¬ FaultCause p reason w := by
  obtain ⟨-, hdiv, hshift, hstub⟩ := hp
  rintro (⟨h, -⟩ | ⟨h, -⟩ | ⟨h, -⟩)
  · cases h.symm.trans hdiv
  · cases h.symm.trans hshift
  · cases h.symm.trans hstub

/-- The IFx are the basic instructions with the opcode numbers 0x10 to 0x17. -/
theorem opcode_of_isConditional {i : Instr} (h : isConditional i) :
    ∃ b, i.operandB = some b ∧ 0x10 ≤ i.opcode.toNat ∧ i.opcode.toNat ≤ 0x17 := by
  cases i with
  | ifb b a | ifc b a | ife b a | ifn b a | ifg b a | ifa b a | ifl b a | ifu b a =>
    exact ⟨b, rfl, by simp [Instr.opcode], by simp [Instr.opcode]⟩
  | _ => exact absurd h id

/-- The end of a tick makes no fault, so a Faulted state was Faulted before it. -/
theorem State.finishTick_of_faulted {t : State} {pc0 pc w : Word} {reason : FaultReason}
    (h : (t.finishTick pc0).run = .faulted reason pc w) : t.finishTick pc0 = t := by
  obtain ⟨-, -, -, heq⟩ | ⟨-, heq⟩ := t.finishTick_cases pc0
  · rw [heq] at h
    cases h
  · exact heq

/-- Settles O42: the fault is that of the fetch or of a skip, since the settings exclude every other cause. -/
theorem sourceSettingsFaultOnlyOnUndecodableWords : Obligations.SourceSettingsFaultOnlyOnUndecodableWords := by
  intro s t reason pc word hsettings hrun hstep hfault
  obtain ⟨hnot, -⟩ | ⟨-, hdec, heq⟩ | ⟨i, u, -, hdec, -, heffect, heq⟩ := step_cases s
  · exact absurd hrun hnot
  · rw [heq, Host.Outcome.next.injEq] at hstep
    subst hstep
    cases hfault
    exact ⟨rfl, rfl, hdec, .inl ⟨rfl, rfl⟩⟩
  · rw [heq, Host.Outcome.next.injEq] at hstep
    subst hstep
    have hkept := State.finishTick_of_faulted hfault
    rw [hkept] at hfault ⊢
    obtain hsame | ⟨r, w, hcause, -⟩ | ⟨hcond, hundec, hpc, hskip⟩ := heffect.run_cases
    · cases hfault.symm.trans (hsame.trans hrun)
    · exact absurd hcause (not_faultCause_of_sourceSettings hsettings r w)
    · cases hfault.symm.trans hskip
      obtain ⟨b, hb, hlow, hhigh⟩ := opcode_of_isConditional hcond
      exact ⟨rfl, rfl, hundec, .inr ⟨i, b, hdec, hb, hlow, hhigh, hpc.trans (by rw [afterOperands_basic hb])⟩⟩

end Sys2Proof.Machine
end

section
/-! PROOFS. The assigned opcodes, and the literal modes (30_encoding.md R67, R68, R72, R73, R78; 40_operands.md R95,
R99). -/

namespace Sys2Proof

/-- Settles O1: each word decodes by evaluation. -/
theorem specExampleWordsDecode : Obligations.SpecExampleWordsDecode := by
  unfold Obligations.SpecExampleWordsDecode
  decide

theorem decodeBasic_eq_none_iff (op : BitVec 5) (b a : Operand) :
    decodeBasic op b a = none ↔
      op.toNat = 0 ∨ op.toNat = 0x18 ∨ op.toNat = 0x19 ∨ op.toNat = 0x1C ∨ op.toNat = 0x1D := by
  have hlt := op.isLt
  unfold decodeBasic
  split <;> simp_all
  omega

theorem decodeSpecial_eq_none_iff (op : BitVec 5) (a : Operand) :
    decodeSpecial op a = none ↔ op.toNat ∉ [0x01, 0x08, 0x09, 0x0A, 0x0B, 0x0C, 0x10, 0x11, 0x12] := by
  unfold decodeSpecial
  split <;> simp_all

/-- Settles O4: each format's decoder refuses the values without a row, and bits 4:0 tell the format. -/
theorem decodeErrorsAreTheUnassignedOpcodes : Obligations.DecodeErrorsAreTheUnassignedOpcodes := by
  intro w
  unfold decode
  split
  next hspecial =>
    rw [decodeSpecial_eq_none_iff, bField_toNat]
    rw [opField_eq_zero_iff] at hspecial
    simp [hspecial]
  next hbasic =>
    rw [decodeBasic_eq_none_iff, opField_toNat]
    rw [opField_eq_zero_iff] at hbasic
    simp [hbasic]

theorem decodeA_inlineLit : ∀ f : BitVec 6, 0x20 ≤ f.toNat →
    decodeA f = .inlineLit (BitVec.ofNat 16 (f.toNat + 0xFFDF)) ∧
      (BitVec.ofNat 16 (f.toNat + 0xFFDF)).toInt = (f.toNat : Int) - 0x21 := by decide

/-- Operand B's modes are well formed in B, and an inline literal is not. -/
theorem decodeB_ne_inlineLit (f : BitVec 5) (v : Word) : decodeB f ≠ .inlineLit v := by
  intro h
  have hwf := wfB_decodeB f
  rw [h] at hwf
  cases hwf

end Sys2Proof

namespace Sys2Proof.Machine

theorem eval_pcReg (s : State) : eval .pc s = (.pc, s) := rfl

theorem eval_inlineLit (v : Word) (s : State) : eval (.inlineLit v) s = (.lit v, s) := rfl

/-- Settles O8: the 32 literal fields by evaluation, and well-formedness for operand B. -/
theorem pcAndInlineLiteralModes : Obligations.PcAndInlineLiteralModes :=
  ⟨rfl, rfl, fun f hf => ⟨_, decodeA_inlineLit f hf⟩, decodeB_ne_inlineLit,
    fun s v => ⟨eval_pcReg s, eval_inlineLit v s⟩⟩

/-- Settles O10: what each evaluation moves, one after the other. -/
theorem evaluationMovesOnlyPcAndSp : Obligations.EvaluationMovesOnlyPcAndSp :=
  fun b a s => ⟨resolveBasic_sameButPcSp b a s, resolveBasic_pc b a s, resolveBasic_sp b a s,
    resolveSpecial_sameButPcSp a s, resolveSpecial_pc a s, resolveSpecial_sp a s⟩

end Sys2Proof.Machine
end

section
/-! PROOFS. SET, STI and STD (42_move.md R130 to R133; 40_operands.md R105). -/

namespace Sys2Proof.Machine

/-- Settles O14: the shape of SET stores the value of A. -/
theorem setStoresItsSource : Obligations.SetStoresItsSource :=
  fun b a s => storeResult_next (fun _ av => av) b a s

/-- Settles O16: the shape of STI and STD, with the word 0xFFFF read as -1. -/
theorem stiAndStdStoreThenMoveIAndJ : Obligations.StiAndStdStoreThenMoveIAndJ :=
  fun b a s => ⟨storeAndMove_next 1 b a s, storeAndMove_next 0xFFFF b a s⟩

/-! ### Fixed operands -/

@[simp] theorem State.setReg_get_self (s : State) (r : Reg) (v : Word) : (s.setReg r v).regs.get r = v :=
  Regs.get_set_self s.regs r v

theorem exec_set_reg_pc (r : Reg) (s : State) :
    exec (.set (.reg r) .pc) s = .next (s.advancePc.setReg r (s.pc + 1)) := rfl

theorem exec_set_nextInd_pc (s : State) :
    exec (.set .nextInd .pc) s =
      .next (s.advancePc.advancePc.writeMem (s.readMem (s.pc + 1)) (s.pc + 1 + 1)) := rfl

theorem exec_set_push_sp (s : State) :
    exec (.set .push .sp) s = .next ({ s with pc := s.pc + 1, sp := s.sp - 1 }.writeMem (s.sp - 1) (s.sp - 1)) := rfl

/-- PUSH and POP address the same word, which is written with what it holds. -/
theorem exec_set_push_pop {s : State} (hmem : Memory.wf s.mem = true) :
    exec (.set .push .pop) s = .next { s with pc := s.pc + 1 } := by
  have hexec : exec (.set .push .pop) s =
      .next { s with
        pc := s.pc + 1, sp := s.sp - 1 + 1,
        mem := Memory.write s.mem (s.sp - 1) (Memory.read s.mem (s.sp - 1)) } := rfl
  rw [hexec, Memory.write_read_self hmem, sub_add_cancel]

/-- Settles O13: each case is SET at fixed operands, read off the state it gives. -/
theorem workedCasesOfOperandTiming : Obligations.WorkedCasesOfOperandTiming := by
  refine ⟨fun s => ?regPc, fun s => ?nextIndPc, fun s hmem => exec_set_push_pop hmem, fun s => ?pushSp⟩
  case regPc => exact ⟨_, exec_set_reg_pc .a s, State.setReg_get_self _ _ _, rfl⟩
  case nextIndPc =>
    refine ⟨_, exec_set_nextInd_pc s, ?_⟩
    rw [State.readMem_writeMem, if_pos rfl, BitVec.add_assoc]
    rfl
  case pushSp => exact ⟨_, exec_set_push_sp s, rfl, Memory.read_write_self _ _ _⟩

/-! ### One tick of SET to a register -/

theorem exec_set_reg_nextLit (r : Reg) (s : State) :
    exec (.set (.reg r) .nextLit) s = .next (s.advancePc.advancePc.setReg r (s.readMem (s.pc + 1))) := rfl

theorem exec_set_reg_inlineLit (r : Reg) (v : Word) (s : State) :
    exec (.set (.reg r) (.inlineLit v)) s = .next (s.advancePc.setReg r v) := rfl

/-- An instruction that moves PC and stays Running ends the tick there: the termination rule does not apply. -/
theorem step_of_exec_moved {s t : State} {i : Instr} (hrun : s.run = .running) (hdec : decode s.fetchWord = some i)
    (hexec : exec i s = .next t) (hpc : t.pc ≠ s.pc) : step s = .next t := by
  rw [step_of_exec hrun hdec hexec, State.finishTick_eq, if_neg fun h => hpc h.2.2]

/-- Settles O15: SET to a register moves PC past its one or two words. -/
theorem setLiteralTakesOneTick : Obligations.SetLiteralTakesOneTick := by
  intro s r v hrun
  refine ⟨?nextWord, ?inline⟩
  case nextWord =>
    rintro hdec rfl
    have hpc : s.pc + 1 + 1 = s.pc + 2 := BitVec.add_assoc s.pc 1 1
    have hmoved : s.pc + 1 + 1 ≠ s.pc := by
      rw [hpc]
      simp
    exact ⟨_, step_of_exec_moved hrun hdec (exec_set_reg_nextLit r s) hmoved, State.setReg_get_self _ _ _, hpc, hrun⟩
  case inline =>
    intro hdec
    have hmoved : s.pc + 1 ≠ s.pc := by simp
    exact ⟨_, step_of_exec_moved hrun hdec (exec_set_reg_inlineLit r v s) hmoved, State.setReg_get_self _ _ _, rfl,
      hrun⟩

end Sys2Proof.Machine
end

section
/-! PROOFS. Results and EX values as integers, and the arithmetic instructions (43_arith.md R140 to R159). -/

namespace Sys2Proof.Machine

/-! ### Words and integers -/

theorem trunc16_natCast (n : Nat) : trunc16 n = BitVec.ofNat 16 n := BitVec.ofInt_natCast 16 n

theorem trunc16_add (x y : Int) : trunc16 (x + y) = trunc16 x + trunc16 y := BitVec.ofInt_add x y

theorem trunc16_sub (x y : Int) : trunc16 (x - y) = trunc16 x - trunc16 y := by
  unfold trunc16
  rw [sub_eq_add_neg, sub_eq_add_neg, BitVec.ofInt_add, BitVec.ofInt_neg]

@[simp] theorem trunc16_toNat (w : Word) : trunc16 w.toNat = w := by simp [trunc16_natCast]

@[simp] theorem trunc16_toInt (w : Word) : trunc16 w.toInt = w := BitVec.ofInt_toInt

theorem toNat_trunc16_natCast (n : Nat) : (trunc16 n).toNat = n % 65536 := by simp [trunc16_natCast]

theorem toNat_trunc16 (t : Int) : ((trunc16 t).toNat : Int) = t % 65536 := by
  have hpos : 0 ≤ t % 65536 := Int.emod_nonneg t (by decide)
  rw [trunc16, BitVec.toNat_ofInt]
  exact Int.toNat_of_nonneg hpos

/-- An integer in the signed range is read back from its word. -/
theorem toInt_trunc16 {t : Int} (hlow : -32768 ≤ t) (hhigh : t < 32768) : (trunc16 t).toInt = t :=
  BitVec.toInt_ofInt_eq_self (by decide) hlow hhigh

theorem toInt_bounds (w : Word) : -32768 ≤ w.toInt ∧ w.toInt < 32768 :=
  ⟨BitVec.le_toInt w, BitVec.toInt_lt⟩

/-! ### ADD and SUB (R140, R142) -/

theorem addValue_eq (bv av : Word) :
    addValue bv av = ⟨bv + av, if bv.toNat + av.toNat > 65535 then 1 else 0⟩ := by
  unfold addValue
  simp [trunc16_add]

theorem subValue_eq (bv av : Word) :
    subValue bv av = ⟨bv - av, if bv.toNat < av.toNat then 0xFFFF else 0⟩ := by
  unfold subValue
  simp [trunc16_sub]

/-- Settles O17: the shape with EX, at the values of ADD and SUB. -/
theorem addAndSubSetCarryAndBorrow : Obligations.AddAndSubSetCarryAndBorrow := by
  intro b a s r
  have hadd := storeResultEx_next addValue b a s
  have hsub := storeResultEx_next subValue b a s
  rw [addValue_eq] at hadd
  rw [subValue_eq] at hsub
  exact ⟨hadd, hsub⟩

/-! ### MUL and MLI (R144, R146) -/

theorem mulValue_product (bv av : Word) :
    (mulValue bv av).ex.toNat * 65536 + (mulValue bv av).value.toNat = bv.toNat * av.toNat := by
  have hlt : bv.toNat * av.toNat < 65536 * 65536 := Nat.mul_lt_mul'' bv.isLt av.isLt
  unfold mulValue
  dsimp only
  rw [toNat_trunc16_natCast, toNat_trunc16_natCast, Nat.shiftRight_eq_div_pow]
  generalize bv.toNat * av.toNat = p at hlt
  omega

theorem mul_toInt_bounds (x y : Word) : -2147483648 ≤ x.toInt * y.toInt ∧ x.toInt * y.toInt < 2147483648 := by
  obtain ⟨hxlow, hxhigh⟩ := toInt_bounds x
  obtain ⟨hylow, hyhigh⟩ := toInt_bounds y
  constructor <;> nlinarith

theorem mliValue_product (bv av : Word) :
    (mliValue bv av).ex.toInt * 65536 + (mliValue bv av).value.toNat = bv.toInt * av.toInt := by
  obtain ⟨hlow, hhigh⟩ := mul_toInt_bounds bv av
  unfold mliValue s16
  dsimp only
  generalize bv.toInt * av.toInt = p at hlow hhigh
  have hshift : p >>> (16 : Nat) = p / 65536 := Int.shiftRight_eq_div_pow p 16
  rw [hshift, toNat_trunc16, toInt_trunc16 (by omega) (by omega)]
  omega

/-- Settles O18: the two words of each product put together. -/
theorem multipliesStoreTheWholeProduct : Obligations.MultipliesStoreTheWholeProduct := by
  intro b a s r
  obtain ⟨t, hmul, hmulStored⟩ := storeResultEx_next mulValue b a s
  obtain ⟨u, hmli, hmliStored⟩ := storeResultEx_next mliValue b a s
  exact ⟨⟨t, _, _, hmul, hmulStored, mulValue_product r.bv r.av⟩,
    ⟨u, _, _, hmli, hmliStored, mliValue_product r.bv r.av⟩⟩

/-! ### DIV, DVI and the overflow (R148 to R151) -/

/-- A quotient and its first 16 fractional bits are one quotient of the dividend moved up by 16 bits. -/
theorem quotient_and_fraction (w : Word) (d : Nat) :
    (trunc16 (w.toNat / d : Nat)).toNat * 65536 + (trunc16 (w.toNat * 65536 / d : Nat)).toNat =
      w.toNat * 65536 / d := by
  have hquotient : w.toNat * 65536 / d / 65536 = w.toNat / d := by
    rw [Nat.div_right_comm, Nat.mul_div_cancel _ (by decide)]
  have hlt : w.toNat / d < 65536 := Nat.lt_of_le_of_lt (Nat.div_le_self _ _) w.isLt
  rw [toNat_trunc16_natCast, toNat_trunc16_natCast, ← hquotient]
  generalize w.toNat * 65536 / d = q at hquotient ⊢
  omega

theorem divValue_zero (bv : Word) : divValue bv 0 = ⟨0, 0⟩ := rfl

theorem divValue_of_ne (bv : Word) {av : Word} (h : av ≠ 0) :
    divValue bv av =
      ⟨trunc16 (bv.toNat / av.toNat : Nat), trunc16 (bv.toNat * 65536 / av.toNat : Nat)⟩ :=
  if_neg h

theorem divValue_halves (bv : Word) {av : Word} (h : av ≠ 0) :
    (divValue bv av).value.toNat * 65536 + (divValue bv av).ex.toNat = bv.toNat * 65536 / av.toNat := by
  rw [divValue_of_ne bv h]
  exact quotient_and_fraction bv av.toNat

/-- Settles O19: by cases on the divisor. -/
theorem divStoresQuotientAndFraction : Obligations.DivStoresQuotientAndFraction := by
  intro b a s r
  obtain ⟨t, hexec, hstored⟩ := storeResultEx_next divValue b a s
  refine ⟨t, _, _, hexec, hstored, fun h0 => ?byZero, fun hne => divValue_halves r.bv hne⟩
  rw [h0, divValue_zero]
  exact ⟨rfl, rfl⟩

theorem dviValue_zero (bv : Word) : dviValue bv 0 = ⟨0, 0⟩ := rfl

theorem dviValue_overflow : dviValue 0x8000 0xFFFF = ⟨0x8000, 0⟩ := by decide

theorem dviValue_of_ne (bv : Word) {av : Word} (h : av ≠ 0) :
    dviValue bv av = ⟨trunc16 (bv.toInt.tdiv av.toInt), trunc16 ((bv.toInt * 65536).tdiv av.toInt)⟩ :=
  if_neg h

/-- The only signed quotient outside the signed range is -32768 by -1. -/
theorem tdiv_bounds {bv av : Word} (h : ¬ (bv = 0x8000 ∧ av = 0xFFFF)) :
    -32768 ≤ bv.toInt.tdiv av.toInt ∧ bv.toInt.tdiv av.toInt < 32768 := by
  obtain ⟨hlow, hhigh⟩ := toInt_bounds bv
  by_cases hminus : av.toInt = -1
  · have hav : av = 0xFFFF := BitVec.eq_of_toInt_eq (hminus.trans (by decide))
    have hbv : bv.toInt ≠ -32768 := fun hb => h ⟨BitVec.eq_of_toInt_eq (hb.trans (by decide)), hav⟩
    rw [hminus, Int.tdiv_neg, Int.tdiv_one]
    omega
  · by_cases hplus : av.toInt = 1
    · rw [hplus, Int.tdiv_one]
      exact ⟨hlow, hhigh⟩
    · have habs : (bv.toInt.tdiv av.toInt).natAbs = bv.toInt.natAbs / av.toInt.natAbs := Int.natAbs_tdiv _ _
      have hbv : bv.toInt.natAbs ≤ 32768 := by omega
      have hhalf : bv.toInt.natAbs / av.toInt.natAbs ≤ 16384 := by
        by_cases h0 : av.toInt.natAbs = 0
        · simp [h0]
        · calc bv.toInt.natAbs / av.toInt.natAbs ≤ bv.toInt.natAbs / 2 := Nat.div_le_div_left (by omega) (by decide)
            _ ≤ 16384 := by omega
      omega

section Overflow
variable {b a : Operand} {s : State}

/-- Without the overflow, or where it wraps, DVI and MDI complete. -/
theorem orDivFault_completes (opcode : Word) (done : State)
    (h : s.params.signedDivOverflow = .wrap ∨
      ¬ ((resolveBasic b a s).bv = 0x8000 ∧ (resolveBasic b a s).av = 0xFFFF)) :
    orDivFault opcode s.pc (resolveBasic b a s) done = .next done := by
  obtain ⟨hfault, hoverflow, -⟩ | ⟨-, heq⟩ := orDivFault_cases opcode s.pc (resolveBasic b a s) done
  · rw [resolveBasic_params] at hfault
    obtain hwrap | hno := h
    · cases hfault.symm.trans hwrap
    · exact absurd hoverflow hno
  · exact heq

/-- The overflow under `fault` takes the fault, and nothing is stored. -/
theorem orDivFault_faults (opcode : Word) (done : State) (hfault : s.params.signedDivOverflow = .fault)
    (hbv : (resolveBasic b a s).bv = 0x8000) (hav : (resolveBasic b a s).av = 0xFFFF) :
    orDivFault opcode s.pc (resolveBasic b a s) done =
      .next ((resolveBasic b a s).st.takeFault .arithFault s.pc opcode) := by
  obtain ⟨-, -, heq⟩ | ⟨hno, -⟩ := orDivFault_cases opcode s.pc (resolveBasic b a s) done
  · exact heq
  · rw [resolveBasic_params] at hno
    exact absurd ⟨hfault, hbv, hav⟩ hno

end Overflow

/-- Settles O20: by cases on the divisor and the one overflow. -/
theorem dviRoundsTowardZero : Obligations.DviRoundsTowardZero := by
  intro b a s r hwrap
  have hexec : exec (.dvi b a) s = .next (r.st.writeWithEx r.b (dviValue r.bv r.av)) :=
    orDivFault_completes 0x07 _ hwrap
  refine ⟨_, _, _, hexec, State.writeWithEx_stored _ _ _, fun h0 => ?byZero, fun hne hno => ?quotients,
    fun hbv hav => ?overflow⟩
  case byZero =>
    rw [h0, dviValue_zero]
    exact ⟨rfl, rfl⟩
  case quotients =>
    obtain ⟨hlow, hhigh⟩ := tdiv_bounds hno
    rw [dviValue_of_ne _ hne]
    exact ⟨toInt_trunc16 hlow hhigh, rfl⟩
  case overflow =>
    rw [hbv, hav, dviValue_overflow]
    exact ⟨rfl, rfl⟩

/-! ### MOD and MDI (R152 to R155) -/

/-- A remainder's state, in the words of the claims. -/
theorem remainderResult_stored (f : Word → Word → Word) (r : Resolved) :
    (r.av ≠ 0 → StoredPlain r.b (f r.bv r.av) r.st (remainderResult f r)) ∧
    (r.av = 0 → r.st.params.modZeroEx = .clear → StoredWithEx r.b 0 0 r.st (remainderResult f r)) ∧
    (r.av = 0 → r.st.params.modZeroEx = .keep → StoredPlain r.b 0 r.st (remainderResult f r)) := by
  obtain ⟨h0, hclear, heq⟩ | ⟨h0, hkeep, heq⟩ | ⟨hne, heq⟩ := remainderResult_cases f r
  all_goals rw [heq]
  · exact ⟨fun hne => absurd h0 hne, fun _ _ => State.writeWithEx_stored _ _ ⟨0, 0⟩,
      fun _ hkeep => by cases hclear.symm.trans hkeep⟩
  · exact ⟨fun hne => absurd h0 hne, fun _ hclear => (by cases hkeep.symm.trans hclear),
      fun _ _ => State.writeLoc_stored _ _ _⟩
  · exact ⟨fun _ => State.writeLoc_stored _ _ _, fun h0 => absurd h0 hne, fun h0 => absurd h0 hne⟩

theorem modValue_toNat (bv av : Word) : (modValue bv av).toNat = bv.toNat % av.toNat := by
  have hlt : bv.toNat % av.toNat < 65536 := Nat.lt_of_le_of_lt (Nat.mod_le _ _) bv.isLt
  rw [modValue, toNat_trunc16_natCast, Nat.mod_eq_of_lt hlt]

theorem mdiValue_toInt (bv av : Word) : (mdiValue bv av).toInt = bv.toInt.tmod av.toInt := by
  have habs : (bv.toInt.tmod av.toInt).natAbs = bv.toInt.natAbs % av.toInt.natAbs := Int.natAbs_tmod _ _
  obtain ⟨halow, hahigh⟩ := toInt_bounds av
  have hbounds : -32768 ≤ bv.toInt.tmod av.toInt ∧ bv.toInt.tmod av.toInt < 32768 := by
    by_cases h0 : av.toInt = 0
    · rw [h0, Int.tmod_zero]
      exact toInt_bounds bv
    · have hlt : bv.toInt.natAbs % av.toInt.natAbs < av.toInt.natAbs := Nat.mod_lt _ (Int.natAbs_pos.mpr h0)
      omega
  exact toInt_trunc16 hbounds.1 hbounds.2

/-- Settles O21: by cases on the divisor and `modZeroEx`; MDI completes where it does not overflow. -/
theorem modAndMdiStoreTheRemainder : Obligations.ModAndMdiStoreTheRemainder := by
  intro b a s r
  have hparams : r.st.params = s.params := resolveBasic_params b a s
  refine ⟨?mod, fun hwrap => ?mdi⟩
  case mod =>
    obtain ⟨hne, hclear, hkeep⟩ := remainderResult_stored modValue r
    rw [hparams] at hclear hkeep
    exact ⟨_, rfl, fun h => ⟨_, hne h, modValue_toNat r.bv r.av⟩, hclear, hkeep⟩
  case mdi =>
    obtain ⟨hne, hclear, hkeep⟩ := remainderResult_stored mdiValue r
    rw [hparams] at hclear hkeep
    exact ⟨_, orDivFault_completes 0x09 (remainderResult mdiValue r) hwrap,
      fun h => ⟨_, hne h, mdiValue_toInt r.bv r.av⟩, hclear, hkeep⟩

/-- Settles O22: DVI and MDI share the fault. -/
theorem signedDivisionOverflowFaults : Obligations.SignedDivisionOverflowFaults :=
  fun _ _ _ hfault hbv hav => ⟨orDivFault_faults 0x07 _ hfault hbv hav, orDivFault_faults 0x09 _ hfault hbv hav⟩

/-! ### ADX and SBX (R156 to R158) -/

/-- Both readings of EX are the same word. -/
theorem trunc16_carryIn (p : Params) (ex : Word) : trunc16 (carryIn p ex) = ex := by
  unfold carryIn s16
  split
  · exact trunc16_toInt ex
  · exact trunc16_toNat ex

theorem adxValue_eq (p : Params) (ex bv av : Word) :
    adxValue (carryIn p ex) bv av = ⟨bv + av + ex, carryOut (bv.toNat + av.toNat + carryIn p ex)⟩ := by
  unfold adxValue
  simp only [trunc16_add, trunc16_toNat, trunc16_carryIn]

theorem sbxValue_eq (p : Params) (ex bv av : Word) :
    sbxValue (carryIn p ex) bv av = ⟨bv - av + ex, carryOut (bv.toNat - av.toNat + carryIn p ex)⟩ := by
  unfold sbxValue
  simp only [trunc16_add, trunc16_sub, trunc16_toNat, trunc16_carryIn]

/-- Settles O23: the shape with carry, at the values of ADX and SBX. -/
theorem adxAndSbxUseTheCarryIn : Obligations.AdxAndSbxUseTheCarryIn := by
  intro b a s r c carry
  have hadx := storeWithCarry_next adxValue b a s
  have hsbx := storeWithCarry_next sbxValue b a s
  rw [adxValue_eq] at hadx
  rw [sbxValue_eq] at hsbx
  exact ⟨hadx, hsbx⟩

/-! ### Two-word sums and differences (R156, R159) -/

/-- What an instruction that stores with EX at a register leaves of the registers, EX and the parameters. -/
theorem StoredWithEx.reg {r : Reg} {v e : Word} {s t : State} (h : StoredWithEx (.reg r) v e s t) :
    t.regs.get r = v ∧ (∀ q, r ≠ q → t.regs.get q = s.regs.get q) ∧ t.ex = e ∧ t.params = s.params := by
  obtain ⟨hstored, hex⟩ := h
  refine ⟨(hstored.regs r).trans (if_pos rfl), fun q hq => ?_, hex.trans (if_neg (by simp)), hstored.params⟩
  exact (hstored.regs q).trans (if_neg fun hloc => hq (Location.reg.inj hloc))

section RegisterOperands
variable {s t : State} {dst src : Reg}

theorem stored_of_add_reg (h : exec (.add (.reg dst) (.reg src)) s = .next t) :
    StoredWithEx (.reg dst) (s.regs.get dst + s.regs.get src)
      (if (s.regs.get dst).toNat + (s.regs.get src).toNat > 65535 then 1 else 0) s.advancePc t := by
  obtain ⟨u, hu, hstored⟩ := (addAndSubSetCarryAndBorrow (.reg dst) (.reg src) s).1
  cases h.symm.trans hu
  exact hstored

theorem stored_of_sub_reg (h : exec (.sub (.reg dst) (.reg src)) s = .next t) :
    StoredWithEx (.reg dst) (s.regs.get dst - s.regs.get src)
      (if (s.regs.get dst).toNat < (s.regs.get src).toNat then 0xFFFF else 0) s.advancePc t := by
  obtain ⟨u, hu, hstored⟩ := (addAndSubSetCarryAndBorrow (.reg dst) (.reg src) s).2
  cases h.symm.trans hu
  exact hstored

theorem stored_of_adx_reg (h : exec (.adx (.reg dst) (.reg src)) s = .next t) :
    StoredWithEx (.reg dst) (s.regs.get dst + s.regs.get src + s.ex)
      (carryOut ((s.regs.get dst).toNat + (s.regs.get src).toNat + carryIn s.params s.ex)) s.advancePc t := by
  obtain ⟨u, hu, hstored⟩ := (adxAndSbxUseTheCarryIn (.reg dst) (.reg src) s).1
  cases h.symm.trans hu
  exact hstored

theorem stored_of_sbx_reg (h : exec (.sbx (.reg dst) (.reg src)) s = .next t) :
    StoredWithEx (.reg dst) (s.regs.get dst - s.regs.get src + s.ex)
      (carryOut ((s.regs.get dst).toNat - (s.regs.get src).toNat + carryIn s.params s.ex)) s.advancePc t := by
  obtain ⟨u, hu, hstored⟩ := (adxAndSbxUseTheCarryIn (.reg dst) (.reg src) s).2
  cases h.symm.trans hu
  exact hstored

end RegisterOperands

/-- The two words of a sum, the low one with its carry. -/
theorem two_word_sum (h l h' l' : Word) :
    (h + h' + (if l.toNat + l'.toNat > 65535 then 1 else 0)).toNat * 65536 + (l + l').toNat =
      (h.toNat * 65536 + l.toNat + (h'.toNat * 65536 + l'.toNat)) % 4294967296 := by
  have hh := h.isLt; have hl := l.isLt; have hh' := h'.isLt; have hl' := l'.isLt
  split <;> simp only [BitVec.toNat_add, BitVec.ofNat_eq_ofNat, BitVec.toNat_ofNat] <;> omega

/-- The two words of a difference, the low one with its borrow, which is the word -1. -/
theorem two_word_difference (h l h' l' : Word) :
    (h - h' + (if l.toNat < l'.toNat then 0xFFFF else 0)).toNat * 65536 + (l - l').toNat =
      (h.toNat * 65536 + l.toNat + 4294967296 - (h'.toNat * 65536 + l'.toNat)) % 4294967296 := by
  have hh := h.isLt; have hl := l.isLt; have hh' := h'.isLt; have hl' := l'.isLt
  split <;> simp only [BitVec.toNat_add, BitVec.toNat_sub, BitVec.ofNat_eq_ofNat, BitVec.toNat_ofNat] <;> omega

/-- With the borrow of the low words read as -1, the high words borrow exactly where the pairs do. -/
theorem carryOut_difference (h l h' l' : Word) {p : Params} (hp : p.carryInSigned = true) :
    carryOut (h.toNat - h'.toNat + carryIn p (if l.toNat < l'.toNat then 0xFFFF else 0)) =
      if h.toNat * 65536 + l.toNat < h'.toNat * 65536 + l'.toNat then 0xFFFF else 0 := by
  have hh := h.isLt; have hl := l.isLt; have hh' := h'.isLt; have hl' := l'.isLt
  have hborrow : carryIn p (if l.toNat < l'.toNat then 0xFFFF else 0) = if l.toNat < l'.toNat then -1 else 0 := by
    rw [carryIn, if_pos hp]
    split <;> rfl
  have habove : ¬ (h.toNat - h'.toNat + (if l.toNat < l'.toNat then -1 else 0) : Int) > 0xFFFF := by split <;> omega
  have hbelow : (h.toNat - h'.toNat + (if l.toNat < l'.toNat then -1 else 0) : Int) < 0 ↔
      h.toNat * 65536 + l.toNat < h'.toNat * 65536 + l'.toNat := by split <;> omega
  rw [hborrow, carryOut, if_neg habove, if_congr hbelow rfl rfl]

/-- Settles O24: ADX adds the carry that ADD left in EX, and ADD leaves the high words alone. -/
theorem addThenAdxAddsTwoWords : Obligations.AddThenAdxAddsTwoWords := by
  intro s t u lo hi lo' hi' hlohi hlohi' hadd hadx
  obtain ⟨hlo, hother, hex, -⟩ := (stored_of_add_reg hadd).reg
  obtain ⟨hhi, hkept, -, -⟩ := (stored_of_adx_reg hadx).reg
  rw [hhi, hother hi hlohi, hother hi' hlohi', hex, hkept lo hlohi.symm]
  exact (congrArg (fun w : Word => _ + w.toNat) hlo).trans (two_word_sum _ _ _ _)

/-- Settles O25: SBX adds the borrow that SUB left in EX as -1, and SUB leaves the high words alone. -/
theorem subThenSbxSubtractsTwoWords : Obligations.SubThenSbxSubtractsTwoWords := by
  intro s t u lo hi lo' hi' hlohi hlohi' hsub hsbx
  obtain ⟨hlo, hother, hex, hparams⟩ := (stored_of_sub_reg hsub).reg
  obtain ⟨hhi, hkept, hout, -⟩ := (stored_of_sbx_reg hsbx).reg
  rw [hother hi hlohi, hother hi' hlohi', hex] at hhi hout
  refine ⟨?difference, fun hsigned => ?borrow⟩
  case difference =>
    rw [hhi, hkept lo hlohi.symm]
    exact (congrArg (fun w : Word => _ + w.toNat) hlo).trans (two_word_difference _ _ _ _)
  case borrow =>
    rw [hout]
    exact carryOut_difference _ _ _ _ (hparams.symm ▸ hsigned)

end Sys2Proof.Machine
end

section
/-! PROOFS. The bitwise instructions and the shifts (44_bitwise.md R170 to R177). -/

namespace Sys2Proof.Machine

/-- Settles O26: the shape without EX, and the bits of the three operations on words. -/
theorem bitwiseWorkBitByBit : Obligations.BitwiseWorkBitByBit := by
  intro b a s r
  refine ⟨?and, ?bor, ?xor⟩
  case and =>
    obtain ⟨t, hexec, hstored⟩ := storeResult_next (fun bv av => bv &&& av) b a s
    exact ⟨t, _, hexec, hstored, fun k _ => BitVec.getLsbD_and⟩
  case bor =>
    obtain ⟨t, hexec, hstored⟩ := storeResult_next (fun bv av => bv ||| av) b a s
    exact ⟨t, _, hexec, hstored, fun k _ => BitVec.getLsbD_or⟩
  case xor =>
    obtain ⟨t, hexec, hstored⟩ := storeResult_next (fun bv av => bv ^^^ av) b a s
    exact ⟨t, _, hexec, hstored, fun k _ => BitVec.getLsbD_xor⟩

/-! ### The two halves of a shift (R173 to R175) -/

theorem shrValue_halves (bv av : Word) :
    (shrValue bv av).value.toNat * 65536 + (shrValue bv av).ex.toNat = bv.toNat * 65536 / 2 ^ av.toNat := by
  unfold shrValue
  rw [Nat.shiftRight_eq_div_pow, Nat.shiftRight_eq_div_pow, Nat.shiftLeft_eq]
  exact quotient_and_fraction bv (2 ^ av.toNat)

/-- A word's integer divided by a positive number stays in the signed range. -/
theorem toInt_ediv_bounds (w : Word) {d : Int} (hd : 0 < d) : -32768 ≤ w.toInt / d ∧ w.toInt / d < 32768 := by
  obtain ⟨hlow, hhigh⟩ := toInt_bounds w
  refine ⟨(Int.le_ediv_iff_mul_le hd).mpr ?_, (Int.ediv_lt_iff_lt_mul hd).mpr ?_⟩ <;> nlinarith

theorem asrValue_halves (bv av : Word) :
    (asrValue bv av).value.toInt * 65536 + (asrValue bv av).ex.toNat = bv.toInt * 65536 / (2 : Int) ^ av.toNat := by
  have hd : (0 : Int) < 2 ^ av.toNat := Int.pow_pos (by decide)
  obtain ⟨hlow, hhigh⟩ := toInt_ediv_bounds bv hd
  have hhigh16 : bv.toInt * 65536 / 2 ^ av.toNat / 65536 = bv.toInt / 2 ^ av.toNat := by
    rw [Int.ediv_ediv_of_nonneg hd.le, Int.mul_ediv_mul_of_pos_left _ _ (by decide)]
  unfold asrValue s16
  dsimp only
  rw [Int.shiftRight_eq_div_pow, Int.shiftRight_eq_div_pow, Int.natCast_pow, toNat_trunc16]
  push_cast
  rw [toInt_trunc16 hlow hhigh, ← hhigh16]
  omega

theorem shlValue_halves (bv av : Word) :
    (shlValue bv av).ex.toNat * 65536 + (shlValue bv av).value.toNat = bv.toNat * 2 ^ av.toNat % 4294967296 := by
  unfold shlValue
  dsimp only
  rw [toNat_trunc16_natCast, toNat_trunc16_natCast, Nat.shiftRight_eq_div_pow, Nat.shiftLeft_eq]
  omega

section Shifts
variable {b a : Operand} {s : State}

/-- A shift completes under `math`, and for counts below 16. -/
theorem storeShift_completes (opcode : Word) (f : Word → Word → ValueEx)
    (h : s.params.wideShift = .math ∨ (resolveBasic b a s).av.toNat < 16) :
    storeShift opcode f b a s = storeResultEx f b a s := by
  obtain ⟨hfault, hwide, -⟩ | ⟨-, heq⟩ := storeShift_cases opcode f b a s
  · obtain hmath | hsmall := h
    · cases hfault.symm.trans hmath
    · exact absurd hwide (Nat.not_le.mpr hsmall)
  · exact heq

/-- A count of 16 or more under `fault` takes the fault, and nothing is stored (R176). -/
theorem storeShift_faults (opcode : Word) (f : Word → Word → ValueEx) (hfault : s.params.wideShift = .fault)
    (hwide : 16 ≤ (resolveBasic b a s).av.toNat) :
    storeShift opcode f b a s = .next ((resolveBasic b a s).st.takeFault .arithFault s.pc opcode) := by
  obtain ⟨-, -, heq⟩ | ⟨hno, -⟩ := storeShift_cases opcode f b a s
  · exact heq
  · exact absurd ⟨hfault, hwide⟩ hno

/-- Where a shift completes it stores its two halves. -/
theorem storeShift_stored (opcode : Word) (f : Word → Word → ValueEx)
    (h : s.params.wideShift = .math ∨ (resolveBasic b a s).av.toNat < 16) :
    ∃ t, storeShift opcode f b a s = .next t ∧
      StoredWithEx (resolveBasic b a s).b (f (resolveBasic b a s).bv (resolveBasic b a s).av).value
        (f (resolveBasic b a s).bv (resolveBasic b a s).av).ex (resolveBasic b a s).st t := by
  rw [storeShift_completes opcode f h]
  exact storeResultEx_next f b a s

end Shifts

/-- Settles O27: the three shifts share the shape, and each value is the two halves of one 32-bit shift. -/
theorem shiftsKeepTheBitsShiftedOut : Obligations.ShiftsKeepTheBitsShiftedOut := by
  intro b a s r hcount
  obtain ⟨t, hshr, hshrStored⟩ := storeShift_stored 0x0D shrValue hcount
  obtain ⟨u, hasr, hasrStored⟩ := storeShift_stored 0x0E asrValue hcount
  obtain ⟨v, hshl, hshlStored⟩ := storeShift_stored 0x0F shlValue hcount
  exact ⟨⟨t, _, _, hshr, hshrStored, shrValue_halves r.bv r.av⟩, ⟨u, _, _, hasr, hasrStored, asrValue_halves r.bv r.av⟩,
    ⟨v, _, _, hshl, hshlStored, shlValue_halves r.bv r.av⟩⟩

/-- Settles O28: the three shifts share the fault. -/
theorem wideShiftsFaultWhereSet : Obligations.WideShiftsFaultWhereSet :=
  fun _ _ _ hfault hwide =>
    ⟨storeShift_faults 0x0D shrValue hfault hwide, storeShift_faults 0x0E asrValue hfault hwide,
      storeShift_faults 0x0F shlValue hfault hwide⟩

end Sys2Proof.Machine
end

section
/-! PROOFS. The conditionals and the skip (45_conditional.md R185 to R194; 41_cycle.md R114 to R116). -/

namespace Sys2Proof.Machine

section Conditionals
variable {b a : Operand} {s : State} {test : Word → Word → Bool}

theorem conditional_of_holds (h : test (resolveBasic b a s).bv (resolveBasic b a s).av = true) :
    conditional test b a s = .next (resolveBasic b a s).st :=
  congrArg Host.Outcome.next (if_pos h)

theorem conditional_of_fails (h : ¬ test (resolveBasic b a s).bv (resolveBasic b a s).av = true) :
    conditional test b a s = .next (resolveBasic b a s).st.skipNext :=
  congrArg Host.Outcome.next (if_neg h)

end Conditionals

/-- What holds of every IFx that runs or skips by a condition holds of the eight, each by the condition it tests. -/
theorem forEachIf_of_exec {b a : Operand} {s : State} {P : Instr → Prop → Prop}
    (h : ∀ (i : Instr) (c : Prop), (c → exec i s = .next (resolveBasic b a s).st) →
      (¬ c → exec i s = .next (resolveBasic b a s).st.skipNext) → P i c) :
    ForEachIf b a (resolveBasic b a s).bv (resolveBasic b a s).av P := by
  have hif : ∀ (i : Instr) (c : Prop) (test : Word → Word → Bool), exec i s = conditional test b a s →
      (test (resolveBasic b a s).bv (resolveBasic b a s).av = true ↔ c) → P i c := fun i c test hexec hc =>
    h i c (fun hholds => hexec.trans (conditional_of_holds (hc.mpr hholds)))
      (fun hfails => hexec.trans (conditional_of_fails (mt hc.mp hfails)))
  exact ⟨hif _ _ _ (exec_ifb b a s) bne_iff_ne, hif _ _ _ (exec_ifc b a s) beq_iff_eq,
    hif _ _ _ (exec_ife b a s) beq_iff_eq, hif _ _ _ (exec_ifn b a s) bne_iff_ne,
    hif _ _ _ (exec_ifg b a s) decide_eq_true_iff, hif _ _ _ (exec_ifa b a s) decide_eq_true_iff,
    hif _ _ _ (exec_ifl b a s) decide_eq_true_iff, hif _ _ _ (exec_ifu b a s) decide_eq_true_iff⟩

/-- Settles O29: a failed test skips, and a decodable word is passed by its instruction's length. -/
theorem conditionalsRunOrSkipOneInstruction : Obligations.ConditionalsRunOrSkipOneInstruction := by
  intro b a s r
  refine forEachIf_of_exec fun i c hholds hfails => ⟨hholds, fun hc j hj => ?_⟩
  have hfetch : decode r.st.fetchWord = some j := (congrArg decode (resolveBasic_readMem b a s _)).trans hj
  rw [hfails hc, State.skipNext_of_decodable (Option.ne_none_iff_exists'.mpr ⟨j, hfetch⟩), wordLength_of_decode hfetch]

/-- An undecodable word stops the skip, or is passed by its fields' length (41_cycle.md R115). -/
theorem State.skipNext_of_undecodable {s : State} (h : decode s.fetchWord = none) :
    (s.params.skipInvalid = .fault → s.skipNext = s.takeFault .decodeError s.pc s.fetchWord) ∧
    (s.params.skipInvalid = .lengthOnly →
      s.skipNext = { s with pc := s.pc + BitVec.ofNat 16 (wordLength s.fetchWord) }) := by
  obtain ⟨hdec | hlength, heq⟩ | ⟨-, hfault, heq⟩ := s.skipNext_cases
  · exact absurd h hdec
  · exact ⟨fun hfault => (by cases hlength.symm.trans hfault), fun _ => heq⟩
  · exact ⟨fun _ => heq, fun hlength => (by cases hfault.symm.trans hlength)⟩

/-- Settles O30: a failed test skips, and an undecodable word is faulted on or passed. -/
theorem skipOverAnUndecodableWord : Obligations.SkipOverAnUndecodableWord := by
  intro b a s r
  refine forEachIf_of_exec fun i c _ hfails hc hdec => ?_
  have hfetch : r.st.fetchWord = s.readMem r.st.pc := resolveBasic_readMem b a s _
  have hparams : r.st.params = s.params := resolveBasic_params b a s
  obtain ⟨hfault, hlength⟩ := State.skipNext_of_undecodable (hfetch ▸ hdec : decode r.st.fetchWord = none)
  rw [hfetch] at hfault hlength
  exact ⟨fun hp => (hfails hc).trans (congrArg _ (hfault (hparams ▸ hp))),
    fun hp => (hfails hc).trans (congrArg _ (hlength (hparams ▸ hp)))⟩

end Sys2Proof.Machine
end

section
/-! PROOFS. The special instructions: JSR and the return, IAG and IAS, the stubs (46_special.md R200 to R212). -/

namespace Sys2Proof.Machine

/-! ### JSR and the return -/

theorem exec_jsr (a : Operand) (s : State) :
    exec (.jsr a) s =
      .next { (resolveSpecial a s).2.pushWord (resolveSpecial a s).2.pc with
        pc := (resolveSpecial a s).2.readLoc (resolveSpecial a s).1 } := rfl

theorem State.readMem_pushWord (s : State) (v x : Word) :
    (s.pushWord v).readMem x = if x = s.sp - 1 then v else s.readMem x := by
  simp only [eq_comm (a := x)]
  exact Memory.read_write s.mem (s.sp - 1) x v

/-- Settles O31: the push of the PC that operand evaluation leaves. -/
theorem jsrPushesTheReturnAddress : Obligations.JsrPushesTheReturnAddress := by
  intro a s r
  refine ⟨_, exec_jsr a s, rfl, rfl, fun x => ?_, resolveSpecial_regs a s, resolveSpecial_ex a s, resolveSpecial_ia a s,
    resolveSpecial_run a s, resolveSpecial_params a s⟩
  rw [← resolveSpecial_pc, ← resolveSpecial_readMem a s]
  exact State.readMem_pushWord _ _ x

theorem exec_set_pc_pop (s : State) :
    exec (.set .pc .pop) s = .next { s with pc := s.readMem s.sp, sp := s.sp + 1 } := rfl

/-- Settles O32: the POP reads the word that the push wrote, and takes SP back over it. -/
theorem returnUndoesTheCall : Obligations.ReturnUndoesTheCall := by
  intro a s t h
  rw [exec_jsr, Host.Outcome.next.injEq] at h
  subst h
  have hsp : (resolveSpecial a s).2.sp - 1 + 1 = (resolveSpecial a s).2.sp := sub_add_cancel _ _
  refine ⟨_, exec_set_pc_pop _, ?pc, hsp, fun hpop hpush => ?sp, resolveSpecial_regs a s, resolveSpecial_ex a s, rfl⟩
  case pc =>
    rw [← resolveSpecial_pc]
    exact (State.readMem_pushWord _ _ _).trans (if_pos rfl)
  case sp =>
    refine hsp.trans ?_
    rw [resolveSpecial_sp, if_neg hpop, if_neg hpush]
    simp

/-! ### IAG and IAS -/

theorem exec_iag (a : Operand) (s : State) :
    exec (.iag a) s = .next ((resolveSpecial a s).2.writeLoc (resolveSpecial a s).1 s.ia) := by
  rw [← resolveSpecial_ia a s]
  rfl

theorem exec_ias (a : Operand) (s : State) :
    exec (.ias a) s =
      .next { (resolveSpecial a s).2 with ia := (resolveSpecial a s).2.readLoc (resolveSpecial a s).1 } := rfl

theorem exec_iag_reg (q : Reg) (s : State) : exec (.iag (.reg q)) s = .next (s.advancePc.setReg q s.ia) := rfl

/-- Settles O33: IAG is a write of IA, and IA is changed by the effect of IAS alone. -/
theorem iagReadsWhatIasWrote : Obligations.IagReadsWhatIasWrote := by
  refine ⟨fun a s => ⟨_, exec_iag a s, State.writeLoc_stored _ _ _⟩, fun a s => ⟨_, exec_ias a s, rfl⟩, ?readBack,
    ?others⟩
  case readBack =>
    intro a q s t u hias hiag
    rw [exec_ias, Host.Outcome.next.injEq] at hias
    rw [exec_iag_reg, Host.Outcome.next.injEq] at hiag
    rw [← hiag, State.setReg_get_self, ← hias]
  case others =>
    intro i s t hexec hi
    exact (effect_of_exec hexec).ia_cases.resolve_right fun ⟨a, ha⟩ => hi a ha

/-! ### The stubs -/

/-- What holds of every instruction with the meaning of a stub holds of the six. -/
theorem forEachStub_of_execStub {a : Operand} {s : State} {P : Instr → Word → Prop}
    (h : ∀ i opcode, exec i s = execStub opcode a s → P i opcode) : ForEachStub a P :=
  ⟨h _ _ rfl, h _ _ rfl, h _ _ rfl, h _ _ rfl, h _ _ rfl, h _ _ rfl⟩

/-- Settles O34: under `nop` a stub ends in the state its operand leaves. -/
theorem stubsAreNopsUnderNop : Obligations.StubsAreNopsUnderNop := by
  intro a s hnop
  refine forEachStub_of_execStub (s := s) fun i opcode hexec => ?_
  obtain ⟨-, heq⟩ | ⟨hrefuse, -⟩ := execStub_cases opcode a s
  · refine ⟨_, hexec.trans heq, resolveSpecial_sameButPcSp a s, resolveSpecial_pc a s, ?_⟩
    rw [resolveSpecial_sp]
    cases a <;> simp
  · cases hnop.symm.trans hrefuse

/-- Settles O35: under `refuse` a stub takes the fault in that state. -/
theorem stubsFaultUnderRefuse : Obligations.StubsFaultUnderRefuse := by
  intro a s hrefuse
  refine forEachStub_of_execStub (s := s) fun i opcode hexec => ?_
  obtain ⟨hnop, -⟩ | ⟨-, heq⟩ := execStub_cases opcode a s
  · cases hrefuse.symm.trans hnop
  · exact hexec.trans heq

end Sys2Proof.Machine
end
